-- ==== Sys2Proof/Word.lean ====
section
/-! DEFINITION. The two data types of the datapath (spec 00_scope.md R6, R8; 40_word_ops.md R100).
Addition, AND, XOR and NOT of Words (R101, R102, R103, R106) are BitVec's own `+`, `&&&`, `^^^`, `~~~`:
32-bit, wrapping, setting no flag. -/

namespace Sys2Proof

/-- R100: an unsigned 32-bit integer. -/
abbrev Word := BitVec 32

/-- A message byte (R10). -/
abbrev Byte := BitVec 8

end Sys2Proof
end

