-- ==== Sys2Proof/Syntax.lean ====
section
/-! DEFINITION. The instructions of spec/opcode_table.json: the four HOST commands (format CMD32, R81) and the
micro-operations of SEQ (format SEQ8, R29, R87). -/

namespace Sys2Proof

/-- One constructor per instruction of the opcode table. UPDATE's five rows (NB = 0..4) are one instruction with
the operand NB (R82, R165), as ROUND's row is one instruction with the operand t: log entry 7. -/
inductive Instr where
  /-- R164. -/
  | nop
  /-- R162. -/
  | init
  /-- R165: absorb `nb` bytes of DIN. -/
  | update (nb : BitVec 3)
  /-- R166. -/
  | finalize
  /-- R172: SEQ has no micro-operation. -/
  | idle
  /-- R124. -/
  | pad1
  /-- R125. -/
  | pad2
  /-- R133. -/
  | load
  /-- R170. -/
  | feed
  /-- R171. -/
  | ser
  /-- R148: compression round `t`. -/
  | round (t : BitVec 6)
deriving DecidableEq, Repr

end Sys2Proof
end

