-- ==== Sys2Proof/WellFormed.lean ====
section
/-! DEFINITION. Which terms of `Instr` are instructions of the hardware: the one operand check there is. -/

namespace Sys2Proof

/-- R83: UPDATE's byte count is at most NB_MAX = 4 (R7). Every six-bit t names a round (R148). -/
def Instr.wf : Instr → Bool
  | .nop => true
  | .init => true
  | .update nb => decide (nb.toNat ≤ 4)
  | .finalize => true
  | .idle => true
  | .pad1 => true
  | .pad2 => true
  | .load => true
  | .feed => true
  | .ser => true
  | .round _ => true

end Sys2Proof
end

