-- ==== Sys2Proof/Decode.lean ====
section
/-! DEFINITION. Decoding and encoding: command words written to CMD (30_encoding.md R80 to R86) and SEQ codes
(R87). A command is one whole 32-bit word written in one access (R86): no byte order and no length enter. -/

namespace Sys2Proof

/-- What is decoded: a command word, or the sequencer's micro-state. -/
inductive Code where
  | cmd (v : Word)
  | seq (q : BitVec 8)
deriving DecidableEq, Repr

/-- Why a code is no instruction. The first four are R85's illegal command words, the last R29's unused codes. -/
inductive Reject where
  /-- A bit of the reserved mask 0xFFFFF8F0 is set (R80). -/
  | reservedBit
  /-- OP is 0x4..0xF (R81). -/
  | reservedOp
  /-- NB is not 0 and OP is not UPDATE (R83). -/
  | nbWithoutUpdate
  /-- UPDATE with NB = 5..7 (R83). -/
  | nbTooLarge
  /-- SEQ code 0x06..0x3F or 0x80..0xFF (R29, R87). -/
  | unusedSeqCode
deriving DecidableEq, Repr

/-- Bits 31:11 and 7:4 of a command word (R80). -/
def reservedMask : Word := 0xFFFFF8F0

/-- OP, bits 3:0 (R80). -/
def opField (v : Word) : BitVec 4 := v.extractLsb' 0 4

/-- NB, bits 10:8 (R80, R82). -/
def nbField (v : Word) : BitVec 3 := v.extractLsb' 8 3

/-- R83, as the spec writes it. The decoder below does not use it: that the two agree is a statement. -/
def legal (v : Word) : Bool :=
  decide (v &&& reservedMask = 0) &&
    ((decide (opField v = 0x0 ∨ opField v = 0x1 ∨ opField v = 0x3) && decide (nbField v = 0)) ||
      (decide (opField v = 0x2) && decide ((nbField v).toNat ≤ 4)))

/-- An instruction that takes no NB: legal only with the field 0 (R80, R83). -/
def withoutNb (v : Word) (i : Instr) : Except Reject Instr :=
  if nbField v = 0 then .ok i else .error .nbWithoutUpdate

/-- R81, R83: the command a word written to CMD encodes. -/
def decodeCmd (v : Word) : Except Reject Instr :=
  if v &&& reservedMask ≠ 0 then .error .reservedBit
  else if opField v = 0x0 then withoutNb v .nop
  else if opField v = 0x1 then withoutNb v .init
  else if opField v = 0x2 then
    if (nbField v).toNat ≤ 4 then .ok (.update (nbField v)) else .error .nbTooLarge
  else if opField v = 0x3 then withoutNb v .finalize
  else .error .reservedOp

/-- R87: the micro-operation a SEQ code names. -/
def decodeSeq (q : BitVec 8) : Except Reject Instr :=
  if q = 0x00 then .ok .idle
  else if q = 0x01 then .ok .pad1
  else if q = 0x02 then .ok .pad2
  else if q = 0x03 then .ok .load
  else if q = 0x04 then .ok .feed
  else if q = 0x05 then .ok .ser
  else if q.extractLsb' 6 2 = 0b01 then .ok (.round (q.extractLsb' 0 6))
  else .error .unusedSeqCode

/-- The instruction of a code, or why it is none. -/
def decode : Code → Except Reject Instr
  | .cmd v => decodeCmd v
  | .seq q => decodeSeq q

/-- The code of a well-formed instruction (R83's words and R29's codes). -/
def encode : Instr → Code
  | .nop => .cmd 0x00000000
  | .init => .cmd 0x00000001
  | .update nb => .cmd (0x00000002 ||| (nb.setWidth 32 <<< 8))
  | .finalize => .cmd 0x00000003
  | .idle => .seq 0x00
  | .pad1 => .seq 0x01
  | .pad2 => .seq 0x02
  | .load => .seq 0x03
  | .feed => .seq 0x04
  | .ser => .seq 0x05
  | .round t => .seq (0x40 ||| t.setWidth 8)

/-- A row of the opcode table is a SEQ code where it has 8 bits and a command word where it has 32. -/
def tableCode (nbits w : Nat) : Code :=
  if nbits = 8 then .seq (BitVec.ofNat 8 w) else .cmd (BitVec.ofNat 32 w)

/-- The instruction the decoder reads from a row's bits. -/
def decodeTableWord (nbits w : Nat) : Option Instr :=
  match decode (tableCode nbits w) with
  | .ok i => some i
  | .error _ => none

end Sys2Proof
end

