-- ==== Sys2Proof/Config.lean ====
section
/-! DEFINITION. What the platform fixes (CORE_BASE, R51) and the values the spec leaves open (U1 to U3 of
93_implementation_defined.md). Each is opaque: no proof can see a value of it. -/

namespace Sys2Proof

/-- CORE_BASE divided by 64: the OPEN parameter of R7, R51 (decision D3). DESIGN CHOICE, log entry 13. -/
opaque Config.coreBaseUnit : Nat

/-- CORE_BASE: the window's platform address, 64-byte aligned by construction (R51). -/
def Config.coreBase : Nat := 64 * Config.coreBaseUnit

/-- The Words a reset event leaves unspecified (R45, R210; U1, U2): the free value of Word number `index`
(0..7 for a..h, 8..23 for WIN[0..15]) after reset event number `draw`. Log entry 2. -/
opaque Config.unspecifiedWord : (draw index : Nat) → Word

/-- The bytes a reset event leaves unspecified (R45, R210; U3): the free value of BUF[index] after reset event
number `draw`. Log entry 2. -/
opaque Config.unspecifiedByte : (draw index : Nat) → Byte

end Sys2Proof
end

