-- ==== Sys2Proof/Machine/Codes.lean ====
section
/-! DEFINITION. The encodings of PHASE (R28) and SEQ (R29). PHASE and SEQ are held as the spec's 3-bit and 8-bit
codes, not as closed types: the codes that "never occur" (5..7; 0x06..0x3F and 0x80..0xFF) are values of the
registers, and R199 says what a model does on one. -/

namespace Sys2Proof.Machine

/-- R28. -/
abbrev Phase.ready : BitVec 3 := 0
/-- R28. -/
abbrev Phase.block : BitVec 3 := 1
/-- R28. -/
abbrev Phase.final : BitVec 3 := 2
/-- R28. -/
abbrev Phase.done : BitVec 3 := 3
/-- R28. -/
abbrev Phase.failed : BitVec 3 := 4

/-- R29. -/
abbrev Seq.idle : BitVec 8 := 0x00
/-- R29. -/
abbrev Seq.pad1 : BitVec 8 := 0x01
/-- R29. -/
abbrev Seq.pad2 : BitVec 8 := 0x02
/-- R29. -/
abbrev Seq.load : BitVec 8 := 0x03
/-- R29. -/
abbrev Seq.feed : BitVec 8 := 0x04
/-- R29. -/
abbrev Seq.ser : BitVec 8 := 0x05
/-- R29: 0x40 + t. -/
abbrev Seq.round (t : BitVec 6) : BitVec 8 := 0x40 + t.setWidth 8

/-- R87: the codes of ROUND(t) are those with bits 7:6 = 01. -/
abbrev Seq.isRound (q : BitVec 8) : Prop := q.extractLsb' 6 2 = 0b01

/-- R14, R34: BUSY is PHASE in BLOCK or FINAL. -/
abbrev Phase.isBusy (p : BitVec 3) : Prop := p = Phase.block ∨ p = Phase.final

end Sys2Proof.Machine
end

