-- ==== Sys2Proof/Machine/State.lean ====
section
/-! DEFINITION. The state of the core (10_state.md), the environment the two agents' steps come from
(20_memory.md R62, 70_reset_and_hazards.md R220), and the reasons a step can stop (60_exceptions.md R199). -/

namespace Sys2Proof.Machine

/-- The working registers (R22). -/
structure Work where
  a : Word
  b : Word
  c : Word
  d : Word
  e : Word
  f : Word
  g : Word
  h : Word
deriving DecidableEq, Repr

/-- What HOST does next, in its program order (R53, R54, R62). `waitIdle` is R89's polling loop, one STATUS read a
step; DESIGN CHOICE, log entry 4. -/
inductive HostOp where
  /-- `MemRead(off, 4)`. -/
  | read (off : BitVec 6)
  /-- `MemWrite(off, 4, v)`. -/
  | write (off : BitVec 6) (v : Word)
  /-- `L: rd STATUS -> s`, repeated from L while `s[0] == 1`. -/
  | waitIdle
deriving DecidableEq, Repr

/-- Who takes the next step (R20, R220): HOST, SEQ, or the external reset event (R210). -/
inductive Turn where
  | host
  | seq
  | reset
deriving DecidableEq, Repr

/-- R20 to R31: the core's registers; then, the model's own, the environment. -/
structure State where
  /-- R21: the chaining value CV[0..7]. -/
  cv : Vector Word 8
  /-- R22: a..h. -/
  work : Work
  /-- R23: the message-schedule window WIN[0..15]. -/
  win : Vector Word 16
  /-- R24: the message buffer BUF[0..66]. -/
  buf : Vector Byte 67
  /-- R25: BUFCNT, 0..67. -/
  bufCnt : Fin 68
  /-- R26: BITLEN. -/
  bitLen : BitVec 64
  /-- R27: DIN. -/
  din : Word
  /-- R28: PHASE. -/
  phase : BitVec 3
  /-- R29: SEQ, the micro-program counter (R41). -/
  seq : BitVec 8
  /-- R30: LAST. -/
  last : Bool
  /-- R31: ERR; bit 0 LENOVF, 1 INVSTATE, 2 ILLCMD, 3 BUSYCMD. -/
  err : BitVec 4
  /-- R68: what the read access of the step just taken drives on rdata; `none` where that step was no read access
  (rdata is "valid in the cycle of a read access" only). Log entry 12. -/
  rdata : Option Word
  /-- The model's own: what HOST will do, first operation first. Log entry 4. -/
  host : List HostOp
  /-- The model's own: whose steps come next, first turn first; what happens when the list is used up is
  `nextTurn`'s to say. Log entry 3. -/
  turns : List Turn
  /-- The model's own: how many reset events there have been, the index of their free values. Log entry 2. -/
  draws : Nat
deriving DecidableEq, Repr

/-- Why a step stops: the `fault INTERNAL(reason)` of R11 and R199, "a state no rule of this spec reaches". Every
one is unreachable from a state of R42, and SAFE: the model stops where the hardware has no defined behaviour. A step
of HOST or SEQ raises each before anything else (`State.violation`); the meanings named below raise it too. -/
inductive Fault where
  /-- Raised by LOAD with BUFCNT < 64 (R133). Safe. -/
  | blockNot64Bytes
  /-- Raised by FEED where PHASE is neither BLOCK nor FINAL (R170). Safe. -/
  | feedOutsideBlock
  /-- Raised by SER where PHASE is not FINAL (R171). Safe. -/
  | serOutsideFinal
  /-- A SEQ code that R29 does not list; raised by SEQ's step (R172). Safe. -/
  | badSeqCode
  /-- PHASE is 5..7 (R28, R199); raised by UPDATE and FINALIZE. Safe. -/
  | badPhaseCode
  /-- Raised by PAD1 with BUFCNT > 63 (R124). Safe. -/
  | padRemainderTooLong
  /-- Raised by UPDATE in READY where BUFCNT + NB > 67, past the end of BUF (R24, R165). Safe. Log entry 10. -/
  | bufferOverflow
  /-- Raised by a step of HOST or SEQ in any other state that violates R42 (R199). Safe. Log entry 8. -/
  | outsideStateTable
deriving DecidableEq, Repr

/-- No meaning of this model refuses. -/
inductive Refusal where
  /-- Raised by `exec` on an instruction that has no meaning yet (there is none in this model). Safe. -/
  | notModelled (mnemonic : String)
deriving DecidableEq, Repr

/-- The answer of one step. -/
abbrev Result := Host.Outcome State Fault Refusal

/-- R45, R210: the state after reset. a..h, WIN and BUF are "unspecified (no value)" there: the zeros are the
model's (DESIGN CHOICE, log entry 1). -/
def State.reset : State where
  cv := iv
  work := ⟨0, 0, 0, 0, 0, 0, 0, 0⟩
  win := Vector.replicate 16 0
  buf := Vector.replicate 67 0
  bufCnt := 0
  bitLen := 0
  din := 0
  phase := Phase.ready
  seq := Seq.idle
  last := false
  err := 0
  rdata := none
  host := []
  turns := []
  draws := 0

end Sys2Proof.Machine
end

