-- ==== Sys2Proof/Machine/Flags.lean ====
section
/-! DEFINITION. STATUS (R34) and the ERR bits (R31, R35, R190). The Word operations set no flag (R44). -/

namespace Sys2Proof.Machine

/-- A condition as a one-bit field. -/
def flag (b : Bool) (width : Nat) : BitVec width := if b then 1 else 0

/-- R34: STATUS.BUSY. -/
def State.busy (s : State) : Bool := decide (Phase.isBusy s.phase)

/-- R34: STATUS.ERRANY. -/
def State.errAny (s : State) : Bool := decide (s.err ≠ 0)

/-- R34: `BUSY | PHASE<<1 | LAST<<4 | SEQ<<8 | BUFCNT<<16 | ERRANY<<23`. -/
def statusWord (s : State) : Word :=
  flag s.busy 32 ||| (s.phase.setWidth 32 <<< 1) ||| (flag s.last 32 <<< 4) ||| (s.seq.setWidth 32 <<< 8)
    ||| (BitVec.ofNat 32 s.bufCnt.val <<< 16) ||| (flag s.errAny 32 <<< 23)

/-- The errors the core reports (R190). -/
inductive ErrCode where
  | lenovf
  | invstate
  | illcmd
  | busycmd
deriving DecidableEq, Repr

/-- R190: an error's code is its ERR bit number. -/
def ErrCode.code : ErrCode → Nat
  | .lenovf => 0
  | .invstate => 1
  | .illcmd => 2
  | .busycmd => 3

/-- The ERR word with only the error's bit set (R190). -/
def ErrCode.bit (e : ErrCode) : BitVec 4 := 1 <<< e.code

/-- R35, R54: the ERR register after a write of `v`: bits 1..3 are cleared where `v` has a 1, bit 0 is not. -/
def errAfterWrite (err : BitVec 4) (v : Word) : BitVec 4 := err &&& ~~~(v.setWidth 4 &&& 0xE)

end Sys2Proof.Machine
end

