-- ==== Sys2Proof/Machine/WordOps.lean ====
section
/-! DEFINITION. The Word operations of 40_word_ops.md beyond BitVec's own, the schedule functions of
42_scheduler.md and the round functions of 43_compression.md. All are pure. -/

namespace Sys2Proof.Machine

/-- R104. Only the constants 2, 6, 7, 11, 13, 17, 18, 19, 22, 25 are used as `n`. -/
def rotr (x : Word) (n : Nat) : Word := (x >>> n) ||| (x <<< (32 - n))

/-- R105: zero-filling. Only 3 and 10 are used as `n`. -/
def shr (x : Word) (n : Nat) : Word := x >>> n

/-- R107: the Word whose most significant byte is `b0`. -/
def be32 (b0 b1 b2 b3 : Byte) : Word := b0 ++ b1 ++ b2 ++ b3

/-- R107: the bytes of a Word, most significant first. -/
def bytes32 (x : Word) : List Byte :=
  [x.extractLsb' 24 8, x.extractLsb' 16 8, x.extractLsb' 8 8, x.extractLsb' 0 8]

/-- R108: the eight bytes of a length, most significant first. -/
def be64 (n : BitVec 64) : List Byte :=
  bytes32 (n.extractLsb' 32 32) ++ bytes32 (n.extractLsb' 0 32)

/-- R130: σ0. -/
def smallSigma0 (x : Word) : Word := rotr x 7 ^^^ rotr x 18 ^^^ shr x 3

/-- R131: σ1. -/
def smallSigma1 (x : Word) : Word := rotr x 17 ^^^ rotr x 19 ^^^ shr x 10

/-- R140: Σ0. -/
def bigSigma0 (a : Word) : Word := rotr a 2 ^^^ rotr a 13 ^^^ rotr a 22

/-- R141: Σ1. -/
def bigSigma1 (e : Word) : Word := rotr e 6 ^^^ rotr e 11 ^^^ rotr e 25

/-- R142: Ch. -/
def ch (e f g : Word) : Word := (e &&& f) ^^^ (~~~e &&& g)

/-- R143: Maj. -/
def maj (a b c : Word) : Word := (a &&& b) ^^^ (a &&& c) ^^^ (b &&& c)

/-- R144: T1. -/
def t1 (e f g h k w : Word) : Word := h + bigSigma1 e + ch e f g + k + w

/-- R145: T2. -/
def t2 (a b c : Word) : Word := bigSigma0 a + maj a b c

/-- The right side of R132 for i ≥ 16 (and of R134), from W[i-2], W[i-7], W[i-15], W[i-16]. -/
def scheduleWord (w2 w7 w15 w16 : Word) : Word := smallSigma1 w2 + w7 + smallSigma0 w15 + w16

end Sys2Proof.Machine
end

