-- ==== Sys2Proof/Machine/Operands.lean ====
section
/-! DEFINITION. Operand forms: the bytes UPDATE takes from DIN (R84), the window offset of an access (R51, R56) and
the register it selects (R52). -/

namespace Sys2Proof.Machine

/-- R84: message byte `k` of an UPDATE is DIN[31-8k : 24-8k]. -/
def dinByte (din : Word) (k : Nat) : Byte := din.extractLsb' (24 - 8 * k) 8

/-- R84: the bytes UPDATE `nb` takes from DIN; those at k ≥ nb are ignored. -/
def dinBytes (nb : BitVec 3) (din : Word) : List Byte := (List.range nb.toNat).map (dinByte din)

/-- R51: the register select, bits [5:2] of the offset; bits [1:0] are ignored (R56). -/
def regSelect (off : BitVec 6) : BitVec 4 := off.extractLsb' 2 4

/-- The registers of the window (R52). -/
inductive WinReg where
  | id
  | status
  | err
  | cmd
  | din
  | bitLenLo
  | bitLenHi
  /-- Offset 0x1C. -/
  | reserved
  | digest (i : Fin 8)
deriving DecidableEq, Repr

/-- R52, R53: the register a select value names. -/
def WinReg.ofSelect (r : BitVec 4) : WinReg :=
  if r = 0x0 then .id
  else if r = 0x1 then .status
  else if r = 0x2 then .err
  else if r = 0x3 then .cmd
  else if r = 0x4 then .din
  else if r = 0x5 then .bitLenLo
  else if r = 0x6 then .bitLenHi
  else if r = 0x7 then .reserved
  else .digest (Fin.ofNat 8 r.toNat)

/-- R51, R52: the register an access at offset `off` reaches. -/
def WinReg.ofOffset (off : BitVec 6) : WinReg := WinReg.ofSelect (regSelect off)

/-- R52: the (aligned) offset of a register. -/
def WinReg.offset : WinReg → BitVec 6
  | .id => 0x00
  | .status => 0x04
  | .err => 0x08
  | .cmd => 0x0C
  | .din => 0x10
  | .bitLenLo => 0x14
  | .bitLenHi => 0x18
  | .reserved => 0x1C
  | .digest i => BitVec.ofNat 6 (0x20 + 4 * i.val)

/-- R51: the offset of a platform address within the window; `none` outside it. -/
def windowOffset (address : Nat) : Option (BitVec 6) :=
  if Config.coreBase ≤ address ∧ address < Config.coreBase + 64 then
    some (BitVec.ofNat 6 (address - Config.coreBase))
  else none

/-- R51: the HOST operation of a bus access at a platform address; "Addresses outside the window never reach the
core". `wdata` is `none` for a read. -/
def HostOp.atAddress (address : Nat) (wdata : Option Word) : Option HostOp :=
  match windowOffset address, wdata with
  | some off, some v => some (.write off v)
  | some off, none => some (.read off)
  | none, _ => none

end Sys2Proof.Machine
end

