-- ==== Sys2Proof/Machine/Ops.lean ====
section
/-! DEFINITION. The operations the meanings share: writing consecutive bytes of BUF, recording an error (R191, this
hardware's whole exception mechanism: R197 says there is no trap), clearing errors (R198), and the phase checks that
UPDATE and FINALIZE pass (R163). -/

namespace Sys2Proof.Machine

/-- `BUF[start + k] <- bytes[k]` for every k; the rest of BUF is kept. -/
def storeBytes (start : Nat) (bytes : List Byte) (buf : Vector Byte 67) : Vector Byte 67 :=
  Vector.ofFn fun i =>
    if start ≤ i.val ∧ i.val < start + bytes.length then bytes.getD (i.val - start) 0 else buf[i]

/-- R191: `raise E` sets the error's bit and, for LENOVF, enters FAILED; the command writes nothing else. -/
def raise (e : ErrCode) (s : State) : State :=
  { s with err := s.err ||| e.bit, phase := if e = .lenovf then Phase.failed else s.phase }

/-- R54, R198: recovery from an error, a HOST write of `v` to ERR. -/
def clearErrors (v : Word) (s : State) : State := { s with err := errAfterWrite s.err v }

/-- R163, R196: the phase checks of UPDATE and FINALIZE, before the command itself, which runs in READY only.
PHASE 5..7 is R199's fault. -/
def whenReady (command : State → Result) (s : State) : Result :=
  if Phase.isBusy s.phase then .next (raise .busycmd s)
  else if s.phase = Phase.done ∨ s.phase = Phase.failed then .next (raise .invstate s)
  else if s.phase = Phase.ready then command s
  else .fault .badPhaseCode

end Sys2Proof.Machine
end

