-- ==== Sys2Proof/Machine/Commands.lean ====
section
/-! DEFINITION. The four HOST commands (44_hasher.md R162 to R166). -/

namespace Sys2Proof.Machine

/-- R164: no state changes, in any phase. -/
def execNop (s : State) : Result := .next s

/-- R162: accepted in every phase. a..h, WIN, the contents of BUF and DIN are not changed. -/
def execInit (s : State) : Result :=
  .next { s with
    cv := iv, bufCnt := 0, bitLen := 0, phase := Phase.ready, seq := Seq.idle, last := false, err := 0 }

/-- R165: UPDATE in READY. The length check comes first and absorbs nothing. -/
def absorb (nb : BitVec 3) (s : State) : Result :=
  if 2 ^ 64 ≤ s.bitLen.toNat + 8 * nb.toNat then .next (raise .lenovf s)
  else if 67 < s.bufCnt.val + nb.toNat then .fault .bufferOverflow
  else
    .next { s with
      buf := storeBytes s.bufCnt.val (dinBytes nb s.din) s.buf
      bufCnt := Fin.ofNat 68 (s.bufCnt.val + nb.toNat)
      bitLen := s.bitLen + BitVec.ofNat 64 (8 * nb.toNat)
      phase := if 64 ≤ s.bufCnt.val + nb.toNat then Phase.block else s.phase
      seq := if 64 ≤ s.bufCnt.val + nb.toNat then Seq.load else s.seq }

/-- R165, R163: UPDATE NB. NB 5..7 is an illegal word (R83, R192), which is checked before the phase (R196); the
decoder never gives it. -/
def execUpdate (nb : BitVec 3) (s : State) : Result :=
  if nb.toNat ≤ 4 then whenReady (absorb nb) s else .next (raise .illcmd s)

/-- R166: FINALIZE in READY. -/
def startFinal (s : State) : Result := .next { s with phase := Phase.final, seq := Seq.pad1 }

/-- R166, R163. -/
def execFinalize (s : State) : Result := whenReady startFinal s

end Sys2Proof.Machine
end

