-- ==== Sys2Proof/Machine/Padder.lean ====
section
/-! DEFINITION. The padding micro-operations (41_padder.md R124, R125). -/

namespace Sys2Proof.Machine

/-- The end both padding steps share (R124, R125): a whole block is buffered, LOAD follows. -/
def padded (last : Bool) (buf : Vector Byte 67) (s : State) : State :=
  { s with buf := buf, last := last, bufCnt := 64, seq := Seq.load }

/-- R124: PAD1 on a remainder of r = BUFCNT bytes. -/
def execPad1 (s : State) : Result :=
  let r := s.bufCnt.val
  if r ≤ 55 then
    .next (padded true (storeBytes r (0x80 :: List.replicate (55 - r) 0x00 ++ be64 s.bitLen) s.buf) s)
  else if r ≤ 63 then .next (padded false (storeBytes r (0x80 :: List.replicate (63 - r) 0x00) s.buf) s)
  else .fault .padRemainderTooLong

/-- R125: PAD2. -/
def execPad2 (s : State) : Result :=
  .next (padded true (storeBytes 0 (List.replicate 56 0x00 ++ be64 s.bitLen) s.buf) s)

end Sys2Proof.Machine
end

