-- ==== Sys2Proof/Machine/Scheduler.lean ====
section
/-! DEFINITION. The message schedule expander: LOAD (42_scheduler.md R133) and the schedule word of a round (R134). -/

namespace Sys2Proof.Machine

/-- R133: Word `j` of the block in BUF[0..63]. -/
def bufWord (buf : Vector Byte 67) (j : Fin 16) : Word :=
  be32 buf[4 * j.val] buf[4 * j.val + 1] buf[4 * j.val + 2] buf[4 * j.val + 3]

/-- The working registers copied from the chaining value (R133). -/
def Work.ofCv (cv : Vector Word 8) : Work :=
  ⟨cv[0], cv[1], cv[2], cv[3], cv[4], cv[5], cv[6], cv[7]⟩

/-- R133: the bytes carried past the block, BUF[64 .. BUFCNT-1]. -/
def carriedBytes (s : State) : List Byte := (s.buf.toList.take s.bufCnt.val).drop 64

/-- R133: LOAD. -/
def execLoad (s : State) : Result :=
  if s.bufCnt.val < 64 then .fault .blockNot64Bytes
  else
    .next { s with
      win := Vector.ofFn (bufWord s.buf)
      work := Work.ofCv s.cv
      buf := storeBytes 0 (carriedBytes s) s.buf
      bufCnt := Fin.ofNat 68 (s.bufCnt.val - 64)
      seq := Seq.round 0 }

/-- `WIN[i mod 16]`. -/
def winAt (win : Vector Word 16) (i : Nat) : Word := win[i % 16]'(Nat.mod_lt i (by decide))

/-- R134: the schedule word of round `t`. -/
def schedw (t : BitVec 6) (win : Vector Word 16) : Word :=
  let i := t.toNat
  if i < 16 then winAt win i
  else scheduleWord (winAt win (i - 2)) (winAt win (i - 7)) (winAt win (i - 15)) (winAt win (i - 16))

/-- R134: WIN after the schedule word of round `t`: from t = 16 on it replaces the oldest Word. -/
def winAfter (t : BitVec 6) (win : Vector Word 16) : Vector Word 16 :=
  if t.toNat < 16 then win else win.set (t.toNat % 16) (schedw t win) (Nat.mod_lt _ (by decide))

end Sys2Proof.Machine
end

