-- ==== Sys2Proof/Machine/Compression.lean ====
section
/-! DEFINITION. The compression round (43_compression.md R147, R148). -/

namespace Sys2Proof.Machine

/-- R147: `step(state, w, k)`; every output is computed from the input state. -/
def roundStep (x : Work) (w k : Word) : Work where
  a := t1 x.e x.f x.g x.h k w + t2 x.a x.b x.c
  b := x.a
  c := x.b
  d := x.c
  e := x.d + t1 x.e x.f x.g x.h k w
  f := x.e
  g := x.f
  h := x.g

/-- R146: K[t]. -/
def roundConstant (t : BitVec 6) : Word := kTable[t.toNat]'t.isLt

/-- R148: ROUND(t). -/
def execRound (t : BitVec 6) (s : State) : Result :=
  .next { s with
    work := roundStep s.work (schedw t s.win) (roundConstant t)
    win := winAfter t s.win
    seq := if t.toNat < 63 then Seq.round (t + 1) else Seq.feed }

end Sys2Proof.Machine
end

