-- ==== Sys2Proof/Machine/Sequencer.lean ====
section
/-! DEFINITION. The micro-operations FEED and SER (44_hasher.md R170, R171) and the code IDLE (R172). -/

namespace Sys2Proof.Machine

/-- The feed-forward (R170, R150): each Word wraps on its own. -/
def feedForward (cv : Vector Word 8) (x : Work) : Vector Word 8 :=
  #v[cv[0] + x.a, cv[1] + x.b, cv[2] + x.c, cv[3] + x.d, cv[4] + x.e, cv[5] + x.f, cv[6] + x.g, cv[7] + x.h]

/-- R170: FEED. -/
def execFeed (s : State) : Result :=
  if s.phase = Phase.block then
    .next { s with cv := feedForward s.cv s.work, phase := Phase.ready, seq := Seq.idle }
  else if s.phase = Phase.final then
    .next { s with cv := feedForward s.cv s.work, seq := if s.last then Seq.ser else Seq.pad2 }
  else .fault .feedOutsideBlock

/-- R171: SER. -/
def execSer (s : State) : Result :=
  if s.phase = Phase.final then .next { s with phase := Phase.done, seq := Seq.idle }
  else .fault .serOutsideFinal

/-- R172, R206: at IDLE, SEQ has no step, so a turn given to it changes nothing. DESIGN CHOICE, log entry 5. -/
def execIdle (s : State) : Result := .next s

end Sys2Proof.Machine
end

