-- ==== Sys2Proof/Machine/Dispatch.lean ====
section
/-! DEFINITION. One arm per instruction, each one call of its meaning. -/

namespace Sys2Proof.Machine

def exec (i : Instr) (s : State) : Host.Outcome State Fault Refusal :=
  match i with
  | .nop => Sys2Proof.Machine.execNop s
  | .init => Sys2Proof.Machine.execInit s
  | .update nb => Sys2Proof.Machine.execUpdate nb s
  | .finalize => Sys2Proof.Machine.execFinalize s
  | .idle => Sys2Proof.Machine.execIdle s
  | .pad1 => Sys2Proof.Machine.execPad1 s
  | .pad2 => Sys2Proof.Machine.execPad2 s
  | .load => Sys2Proof.Machine.execLoad s
  | .feed => Sys2Proof.Machine.execFeed s
  | .ser => Sys2Proof.Machine.execSer s
  | .round t => Sys2Proof.Machine.execRound t s

end Sys2Proof.Machine
end

