-- ==== Sys2Proof/Machine/StateTable.lean ====
section
/-! DEFINITION. R42's table of the states that the rules reach, and the check R199 asks of a model: a step taken in any
other state is an internal fault. -/

namespace Sys2Proof.Machine

/-- R42: `(BITLEN/8) mod 64`. -/
def State.lengthMod (s : State) : Nat := s.bitLen.toNat / 8 % 64

/-- R42's table, row by row: PHASE, SEQ, BUFCNT, LAST. -/
abbrev State.inTable (s : State) : Prop :=
  (s.phase = Phase.ready ∧ s.seq = Seq.idle ∧ s.bufCnt.val ≤ 63 ∧ s.bufCnt.val = s.lengthMod ∧ s.last = false) ∨
  (s.phase = Phase.block ∧ s.seq = Seq.load ∧ 64 ≤ s.bufCnt.val ∧ s.bufCnt.val ≤ 67 ∧ s.last = false) ∨
  (s.phase = Phase.block ∧ (Seq.isRound s.seq ∨ s.seq = Seq.feed) ∧ s.bufCnt.val ≤ 3 ∧
    s.bufCnt.val = s.lengthMod ∧ s.last = false) ∨
  (s.phase = Phase.final ∧ s.seq = Seq.pad1 ∧ s.bufCnt.val ≤ 63 ∧ s.bufCnt.val = s.lengthMod ∧ s.last = false) ∨
  (s.phase = Phase.final ∧ s.seq = Seq.load ∧ s.bufCnt.val = 64) ∨
  (s.phase = Phase.final ∧ (Seq.isRound s.seq ∨ s.seq = Seq.feed) ∧ s.bufCnt.val = 0) ∨
  (s.phase = Phase.final ∧ s.seq = Seq.pad2 ∧ s.bufCnt.val = 0 ∧ s.last = false) ∨
  (s.phase = Phase.final ∧ s.seq = Seq.ser ∧ s.bufCnt.val = 0 ∧ s.last = true) ∨
  (s.phase = Phase.done ∧ s.seq = Seq.idle ∧ s.bufCnt.val = 0 ∧ s.last = true) ∨
  (s.phase = Phase.failed ∧ s.seq = Seq.idle ∧ s.bufCnt.val ≤ 63 ∧ s.bufCnt.val = s.lengthMod ∧ s.last = false)

/-- R42 whole: the table, and BITLEN a multiple of 8 (it is below 2^64 by its width). -/
abbrev State.wf (s : State) : Prop := s.bitLen.toNat % 8 = 0 ∧ s.inTable

/-- R199: the reason why a state is none that the rules reach; `none` exactly for the states of R42. The reasons that
the spec names come first: log entry 9. R42 is taken over program P6 of 95_test_vectors.md, whose start state (READY,
BUFCNT = 0, BITLEN = 0xfffffffffffffff8) R42 excludes, since it wants BUFCNT = 63 there: DESIGN CHOICE, log entry 22. -/
def State.violation (s : State) : Option Fault :=
  if 5 ≤ s.phase.toNat then some .badPhaseCode
  else if ¬ (s.seq.toNat ≤ 5 ∨ Seq.isRound s.seq) then some .badSeqCode
  else if s.seq = Seq.load ∧ s.bufCnt.val < 64 then some .blockNot64Bytes
  else if s.seq = Seq.feed ∧ ¬ Phase.isBusy s.phase then some .feedOutsideBlock
  else if s.seq = Seq.ser ∧ s.phase ≠ Phase.final then some .serOutsideFinal
  else if s.seq = Seq.pad1 ∧ 63 < s.bufCnt.val then some .padRemainderTooLong
  else if s.wf then none
  else some .outsideStateTable

/-- R199: a turn of HOST or SEQ, taken in the states of R42 only. -/
def whenReached (turn : State → Result) (s : State) : Result :=
  match s.violation with
  | none => turn s
  | some f => .fault f

/-- `s` with the micro-operation code `q` in SEQ, in a state in which R42 lists that code: `s` itself otherwise
unchanged where it is one, else with the PHASE, BUFCNT and LAST of the code's row (READY for IDLE, FINAL for the
others). Log entry 6. -/
def State.atCode (q : BitVec 8) (s : State) : State :=
  if { s with seq := q }.wf then { s with seq := q }
  else
    { s with
      seq := q
      phase := if q = Seq.idle then Phase.ready else Phase.final
      bufCnt :=
        if q = Seq.idle ∨ q = Seq.pad1 then Fin.ofNat 68 s.lengthMod else if q = Seq.load then 64 else 0
      last := decide (q = Seq.ser) }

end Sys2Proof.Machine
end

