-- ==== Sys2Proof/Machine/Bus.lean ====
section
/-! DEFINITION. The register window as HOST sees it (20_memory.md R52 to R58), command dispatch (44_hasher.md R163)
and the pin-level interface (R68). -/

namespace Sys2Proof.Machine

/-- R53: the value a read of a register returns. It reads the state and changes nothing (R57). -/
def readReg (r : WinReg) (s : State) : Word :=
  match r with
  | .id => idWord
  | .status => statusWord s
  | .err => s.err.setWidth 32
  | .cmd => 0
  | .din => s.din
  | .bitLenLo => s.bitLen.extractLsb' 0 32
  | .bitLenHi => s.bitLen.extractLsb' 32 32
  | .reserved => 0
  | .digest i => if s.phase = Phase.done then s.cv[i] else 0

/-- R53: `MemRead(off, 4)`. -/
def memRead (off : BitVec 6) (s : State) : Word := readReg (WinReg.ofOffset off) s

/-- R163: `Command(v)`. An illegal word raises ILLCMD and has no other effect (R85, R192); the phase checks of a
legal one are its meaning's. -/
def command (v : Word) (s : State) : Result :=
  match decode (.cmd v) with
  | .ok i => exec i s
  | .error _ => .next (raise .illcmd s)

/-- R54: the effect of a write of `v` to a register; read-only and reserved registers ignore it. -/
def writeReg (r : WinReg) (v : Word) (s : State) : Result :=
  match r with
  | .err => .next (clearErrors v s)
  | .cmd => command v s
  | .din => .next { s with din := v }
  | .id => .next s
  | .status => .next s
  | .bitLenLo => .next s
  | .bitLenHi => .next s
  | .reserved => .next s
  | .digest _ => .next s

/-- R54: `MemWrite(off, 4, v)`. -/
def memWrite (off : BitVec 6) (v : Word) (s : State) : Result := writeReg (WinReg.ofOffset off) v s

/-- One read access (R53): the value is on rdata in this step (R68), nothing else changes. -/
def readAccess (off : BitVec 6) (s : State) : State := { s with rdata := some (memRead off s) }

/-- R210, R45: the reset event. What the spec leaves unspecified is free, not zero (U1 to U3), and new at every
event. HOST's operations, the order of turns and the event count are the environment's and stay. Log entries 2, 16. -/
def resetEvent (s : State) : State :=
  { State.reset with
    work := ⟨Config.unspecifiedWord s.draws 0, Config.unspecifiedWord s.draws 1, Config.unspecifiedWord s.draws 2,
      Config.unspecifiedWord s.draws 3, Config.unspecifiedWord s.draws 4, Config.unspecifiedWord s.draws 5,
      Config.unspecifiedWord s.draws 6, Config.unspecifiedWord s.draws 7⟩
    win := Vector.ofFn fun i => Config.unspecifiedWord s.draws (8 + i.val)
    buf := Vector.ofFn fun i => Config.unspecifiedByte s.draws i.val
    host := s.host
    turns := s.turns
    draws := s.draws + 1 }

/-- R68: the inputs of the slave port at one rising edge of clk. -/
structure Pins where
  rst : Bool
  sel : Bool
  we : Bool
  /-- Offset bits [5:2] of the access. -/
  addr : BitVec 4
  wdata : Word
deriving DecidableEq, Repr

/-- R68, R210: what the inputs at one rising edge do. With rst high the state is reset and an access presented in
the same cycle is not performed; otherwise an access completes in the cycle it is presented. SEQ's own step at an
edge is SEQ's turn (R62). -/
def risingEdge (p : Pins) (s : State) : Result :=
  if p.rst then .next (resetEvent s)
  else if p.sel then
    if p.we then whenReached (memWrite (p.addr ++ 0#2) p.wdata) { s with rdata := none }
    else whenReached (fun u => .next (readAccess (p.addr ++ 0#2) u)) s
  else .next { s with rdata := none }

end Sys2Proof.Machine
end

