-- ==== Sys2Proof/Machine/Agents.lean ====
section
/-! DEFINITION. The steps of the two agents (10_state.md R20), the reset event (R210), and whose turn it is (R62,
R220). -/

namespace Sys2Proof.Machine

/-- R172: SEQ's step performs the micro-operation SEQ names; a code that names none is R199's fault. -/
def seqTurn (s : State) : Result :=
  match decode (.seq s.seq) with
  | .ok i => exec i s
  | .error _ => .fault .badSeqCode

/-- One step of HOST: its next operation in program order (R62), or nothing where it has none. A poll reads STATUS
and goes on once BUSY is 0 (R89). -/
def hostTurn (s : State) : Result :=
  match s.host with
  | [] => .next s
  | .read off :: rest => .next (readAccess off { s with host := rest })
  | .write off v :: rest => memWrite off v { s with host := rest }
  | .waitIdle :: rest =>
    if (memRead WinReg.status.offset s)[0] then .next (readAccess WinReg.status.offset s)
    else .next (readAccess WinReg.status.offset { s with host := rest })

/-- Whose step is next: the first of the turns; once they are used up, SEQ's while it has one, else HOST's. Every
finite interleaving is some list of turns, and the default is R220's fairness. DESIGN CHOICE, log entry 3. -/
def nextTurn (s : State) : Turn :=
  match s.turns with
  | t :: _ => t
  | [] => if s.seq = Seq.idle then .host else .seq

/-- What every step does first: its turn is used, and rdata of the step before is no longer valid (R68). -/
def beginStep (s : State) : State := { s with turns := s.turns.tail, rdata := none }

/-- The step of the agent whose turn it is. R199 stops HOST and SEQ outside the states of R42; the reset event "may
occur in any phase" and "replaces the whole state" (R210). Log entry 8. -/
def takeTurn (t : Turn) (s : State) : Result :=
  match t with
  | .host => whenReached hostTurn s
  | .seq => whenReached seqTurn s
  | .reset => .next (resetEvent s)

/-- `s` with an instruction of the opcode table where the next step takes it from: a SEQ code (8 bits) in SEQ, in a
state that R42 lists, with SEQ's turn next; a command word as HOST's next write to CMD with HOST's turn next. Log
entry 6. -/
def placeTableWord (nbits w : Nat) (s : State) : State :=
  match tableCode nbits w with
  | .seq q => { s.atCode q with turns := .seq :: s.turns }
  | .cmd v => { s with host := .write WinReg.cmd.offset v :: s.host, turns := .host :: s.turns }

end Sys2Proof.Machine
end

