-- ==== Sys2Proof/Machine/Step.lean ====
section
/-! DEFINITION. One step of the machine (20_memory.md R62): one HOST access, one SEQ micro-operation, or the reset
event. -/

namespace Sys2Proof.Machine

def step (s : State) : Host.Outcome State Fault Refusal := takeTurn (nextTurn s) (beginStep s)

/-- The state whose next step runs the instruction of a table row's bits. -/
def State.withFetchWord (s : State) (nbits w : Nat) : State := placeTableWord nbits w s

end Sys2Proof.Machine
end

