-- ==== Sys2Proof/Machine/HostProgram.lean ====
section
/-! DEFINITION. The assembler's accesses and pseudo-instructions (30_encoding.md R88, R89) as lists of HOST
operations. -/

namespace Sys2Proof.Machine

/-- R88: `wr REG, imm32`. -/
def Asm.wr (r : WinReg) (v : Word) : HostOp := .write r.offset v

/-- R88: `rd REG`. -/
def Asm.rd (r : WinReg) : HostOp := .read r.offset

/-- R88, R83: `nop`. -/
def Asm.nop : HostOp := Asm.wr .cmd 0x00000000

/-- R88, R83: `init`. -/
def Asm.init : HostOp := Asm.wr .cmd 0x00000001

/-- R88, R83, R165: `update NB`. -/
def Asm.update (nb : BitVec 3) : HostOp := Asm.wr .cmd (0x00000002 ||| (nb.setWidth 32 <<< 8))

/-- R88, R83: `finalize`. -/
def Asm.finalize : HostOp := Asm.wr .cmd 0x00000003

/-- R89: `absorb NB, w`. -/
def Asm.absorb (nb : BitVec 3) (w : Word) : List HostOp := [Asm.wr .din w, Asm.update nb]

/-- R89: `clear_errors`. -/
def Asm.clearErrors : List HostOp := [Asm.wr .err 0x0000000E]

/-- R89: `read_digest`. -/
def Asm.readDigest : List HostOp :=
  [Asm.rd (.digest 0), Asm.rd (.digest 1), Asm.rd (.digest 2), Asm.rd (.digest 3),
    Asm.rd (.digest 4), Asm.rd (.digest 5), Asm.rd (.digest 6), Asm.rd (.digest 7)]

/-- R89, the part of `oneshot M` between `init` and `finalize`: four bytes an absorb, then the tail, each followed
by `wait_idle`. -/
def Asm.message : List Byte → List HostOp
  | b0 :: b1 :: b2 :: b3 :: rest => Asm.absorb 4 (be32 b0 b1 b2 b3) ++ .waitIdle :: Asm.message rest
  | [b0, b1, b2] => Asm.absorb 3 (be32 b0 b1 b2 0) ++ [.waitIdle]
  | [b0, b1] => Asm.absorb 2 (be32 b0 b1 0 0) ++ [.waitIdle]
  | [b0] => Asm.absorb 1 (be32 b0 0 0 0) ++ [.waitIdle]
  | [] => []

/-- R89: `oneshot M`. -/
def Asm.oneshot (m : List Byte) : List HostOp :=
  Asm.init :: (Asm.message m ++ Asm.finalize :: .waitIdle :: Asm.readDigest)

end Sys2Proof.Machine
end

