-- ==== Sys2Proof/Machine/Reference.lean ====
section
/-! DEFINITION. The functions on whole messages that the spec defines beside the machine: the padding function (R120),
the whole schedule (R132), the compression of a block (R150), the digest (R174, R175) and the source's abstract Hasher
(R161). No step uses them: claims compare the machine with them. -/

namespace Sys2Proof.Machine

/-- R13: a Block, 64 bytes. -/
abbrev Block := Vector Byte 64

/-- `S[64j .. 64j+63]` (R120). -/
def blockAt (s : List Byte) (j : Nat) : Block := Vector.ofFn fun i => s.getD (64 * j + i.val) 0

/-- The first `n` blocks of a byte sequence, in order. -/
def blocks (n : Nat) (s : List Byte) : List Block := (List.range n).map (blockAt s)

/-- R120: `while len(S) mod 64 ≠ 56: S = S ‖ [0x00]`, for at most `fuel` bytes (63 are enough). -/
def zeroFill : (fuel : Nat) → List Byte → List Byte
  | 0, s => s
  | n + 1, s => if s.length % 64 = 56 then s else zeroFill n (s ++ [0x00])

/-- R120: the byte stream S of `pad(M)`. -/
def paddedBytes (m : List Byte) : List Byte :=
  zeroFill 63 (m ++ [0x80]) ++ be64 (BitVec.ofNat 64 (8 * m.length))

/-- R120: `pad(M)`. -/
def pad (m : List Byte) : List Block := blocks ((paddedBytes m).length / 64) (paddedBytes m)

/-- R132: Word `j` of a Block. -/
def blockWord (b : Block) (j : Fin 16) : Word :=
  be32 b[4 * j.val] b[4 * j.val + 1] b[4 * j.val + 2] b[4 * j.val + 3]

/-- R132: W[0 .. 15+n]. -/
def expandTo (b : Block) : (n : Nat) → List Word
  | 0 => (Vector.ofFn (blockWord b)).toList
  | n + 1 =>
    let w := expandTo b n
    w ++ [scheduleWord (w.getD (n + 14) 0) (w.getD (n + 9) 0) (w.getD (n + 1) 0) (w.getD n 0)]

/-- R132: `expand(B)`, W[0..63]. -/
def expand (b : Block) : List Word := expandTo b 48

/-- R149, R150: the first `n` rounds of a block, from a state and the schedule. -/
def rounds (w : List Word) : (n : Nat) → Work → Work
  | 0, x => x
  | n + 1, x => roundStep (rounds w n x) (w.getD n 0) (roundConstant (BitVec.ofNat 6 n))

/-- R150: `compress(CV, B)`. -/
def compress (cv : Vector Word 8) (b : Block) : Vector Word 8 :=
  feedForward cv (rounds (expand b) 64 (Work.ofCv cv))

/-- R174. -/
def serialize (cv : Vector Word 8) : List Byte := cv.toList.flatMap bytes32

/-- R175. For messages of fewer than 2^61 bytes (R123); log entry 19. -/
def sha256 (m : List Byte) : List Byte := serialize ((pad m).foldl compress iv)

/-- R161: the state of the source's abstract Hasher. -/
structure Hasher where
  h : Vector Word 8
  u : List Byte
  l : Nat
  done : Bool
deriving DecidableEq, Repr

/-- The errors of R161. -/
inductive HasherError where
  | invalidState
  | lengthOverflow
deriving DecidableEq, Repr

/-- R161: `new()`. -/
def Hasher.new : Hasher := ⟨iv, [], 0, false⟩

/-- R161: `while len(U) ≥ 64: H = compress(H, U[0..63]); U = U[64..]`, for at most `fuel` blocks. -/
def Hasher.consume : (fuel : Nat) → Vector Word 8 → List Byte → Vector Word 8 × List Byte
  | 0, h, u => (h, u)
  | n + 1, h, u => if 64 ≤ u.length then Hasher.consume n (compress h (blockAt u 0)) (u.drop 64) else (h, u)

/-- R161: `update(m)`. -/
def Hasher.update (m : List Byte) (x : Hasher) : Except HasherError Hasher :=
  if x.done then .error .invalidState
  else if 2 ^ 64 ≤ 8 * (x.l + m.length) then .error .lengthOverflow
  else
    let r := Hasher.consume (x.u ++ m).length x.h (x.u ++ m)
    .ok ⟨r.1, r.2, x.l + m.length, x.done⟩

/-- R161: `finalize()`: the finished instance, in which only H and the done flag are written, and the digest. -/
def Hasher.finalize (x : Hasher) : Hasher × List Byte :=
  let p := zeroFill 63 (x.u ++ [0x80]) ++ be64 (BitVec.ofNat 64 (8 * x.l))
  let h := (blocks (p.length / 64) p).foldl compress x.h
  ({ x with h := h, done := true }, serialize h)

/-- R161: `oneshot(M)`. -/
def Hasher.oneshot (m : List Byte) : Except HasherError (List Byte) :=
  match Hasher.new.update m with
  | .ok x => .ok x.finalize.2
  | .error e => .error e

end Sys2Proof.Machine
end

