-- ==== Sys2Proof/Safety.lean ====
section
/-! DEFINITION. The terms claims use: the reachable states of R42, and which message a state has absorbed (R127,
R176). -/

namespace Sys2Proof.Machine

/-- R42 with what makes it inductive: in BLOCK at LOAD BUFCNT too agrees with BITLEN modulo 64 (R42's table has it
before and after that state only). -/
abbrev State.Inv (s : State) : Prop :=
  s.wf ∧ (s.phase = Phase.block → s.seq = Seq.load → s.bufCnt.val % 64 = s.lengthMod)

/-- The state has absorbed exactly the message `m` and compressed its first `k` blocks; the rest is in BUF (R24,
R26, R127). -/
def State.Absorbed (s : State) (k : Nat) (m : List Byte) : Prop :=
  s.bitLen.toNat = 8 * m.length ∧ s.cv = (blocks k m).foldl compress iv ∧
    s.buf.toList.take s.bufCnt.val = m.drop (64 * k)

/-- READY with the message `m` absorbed. -/
def State.Holding (s : State) (m : List Byte) : Prop :=
  s.phase = Phase.ready ∧ s.seq = Seq.idle ∧ s.last = false ∧ s.bufCnt.val ≤ 63 ∧ s.Absorbed (m.length / 64) m

/-- The block in BUF[0..63], which LOAD takes (R133). -/
def bufBlock (buf : Vector Byte 67) : Block := Vector.ofFn fun i => buf[i.val]

/-- The rounds of the block `b` are under way and round `t` is next: a..h are those of the first t rounds, and WIN
holds the sixteen latest Words of the schedule (R135). -/
def State.InRounds (b : Block) (t : BitVec 6) (s : State) : Prop :=
  Phase.isBusy s.phase ∧ s.seq = Seq.round t ∧ s.work = rounds (expand b) t.toNat (Work.ofCv s.cv) ∧
    ∀ k, k < 16 → winAt s.win (t.toNat - 16 + k) = (expand b).getD (t.toNat - 16 + k) 0

/-- The next step is HOST's write of the word `v` to CMD (R36, R54). -/
def State.issues (s : State) (v : Word) : Prop :=
  nextTurn s = .host ∧ ∃ off rest, s.host = .write off v :: rest ∧ WinReg.ofOffset off = .cmd

/-- The next step is HOST's write to the register `r`. -/
def State.writes (s : State) (r : WinReg) : Prop :=
  nextTurn s = .host ∧ ∃ off v rest, s.host = .write off v :: rest ∧ WinReg.ofOffset off = r

/-- No reset event is among the turns to come. -/
def State.noReset (s : State) : Prop := Turn.reset ∉ s.turns

/-- The two states differ at most in what is unspecified there (R45; U1 to U3): a..h and WIN except while a block is
in the rounds, and the bytes of BUF at BUFCNT and above. -/
def State.AgreesWith (s t : State) : Prop :=
  t = { s with work := t.work, win := t.win, buf := t.buf } ∧
    (Seq.isRound s.seq → t.work = s.work ∧ t.win = s.win) ∧ (s.seq = Seq.feed → t.work = s.work) ∧
    (∀ i (_ : i < 67), i < s.bufCnt.val → t.buf[i] = s.buf[i])

/-- The primes up to 311, in order: the 64 that R146's table starts from. -/
def primesTo311 : List Nat := (List.range 312).filter fun n => decide n.Prime

/-- `n` steps of the machine. -/
def run (n : Nat) (s : State) : Result := Sys2Proof.core.run n s

end Sys2Proof.Machine
end

