-- ==== Sys2Proof/Certificates/Slice0/Obligations.lean ====
section
/-! DEFINITION. The statements for the provers, family by family: the commands, the micro-operations, the register
window, decoding, the step, the whole machine, and the reference functions. A statement's last clause
`t = { s with f := t.f, … }` is its frame: every field but those named is unchanged. -/

open Sys2Proof Sys2Proof.Machine

/-! ### The commands -/

/-- R162: INIT, in every phase. a..h, WIN, BUF, DIN and the environment are unchanged; STATUS reads 0. -/
def Obligations.InitRestartsInEveryPhase : Prop :=
  ∀ s : State, ∃ t, exec .init s = .next t ∧ (∀ i (_ : i < 8), t.cv[i] = iv[i]) ∧ t.bufCnt = 0 ∧ t.bitLen = 0 ∧
    t.phase = Phase.ready ∧ t.seq = Seq.idle ∧ t.last = false ∧ t.err = 0 ∧ statusWord t = 0 ∧
    t = { s with cv := t.cv, bufCnt := t.bufCnt, bitLen := t.bitLen, phase := t.phase, seq := t.seq, last := t.last,
                 err := t.err }

/-- R164: NOP, and its word, in every phase. -/
def Obligations.NopChangesNothing : Prop := ∀ s : State, exec .nop s = .next s ∧ command 0x00000000 s = .next s

/-- R165 (44_hasher.md section 2) and R84 in READY: the bytes absorbed and where, the counters, and the start of a block.
BUFCNT ≤ 63 there (R42); the statement holds wherever the bytes fit in BUF. That the bytes of BUF at BUFCNT + NB and above
are kept is the model's reading (DEDUCED, log entry 14): R24 gives them no defined value. -/
def Obligations.UpdateAbsorbsDinBytesInOrder : Prop :=
  ∀ (s : State) (nb : BitVec 3), s.phase = Phase.ready → nb.toNat ≤ 4 → s.bufCnt.val + nb.toNat ≤ 67 →
    s.bitLen.toNat + 8 * nb.toNat < 2 ^ 64 →
    ∃ t, exec (.update nb) s = .next t ∧
      (∀ k (_ : k < nb.toNat) (_ : s.bufCnt.val + k < 67),
        t.buf[s.bufCnt.val + k] = s.din.extractLsb' (24 - 8 * k) 8) ∧
      (∀ i (_ : i < 67), i < s.bufCnt.val ∨ s.bufCnt.val + nb.toNat ≤ i → t.buf[i] = s.buf[i]) ∧
      t.bufCnt.val = s.bufCnt.val + nb.toNat ∧ t.bitLen.toNat = s.bitLen.toNat + 8 * nb.toNat ∧
      (64 ≤ s.bufCnt.val + nb.toNat → t.phase = Phase.block ∧ t.seq = Seq.load) ∧
      (s.bufCnt.val + nb.toNat < 64 → t.phase = s.phase ∧ t.seq = s.seq) ∧
      t = { s with buf := t.buf, bufCnt := t.bufCnt, bitLen := t.bitLen, phase := t.phase, seq := t.seq }

/-- R195: an UPDATE past 2^64 bits absorbs nothing, and with NB = 0 that never happens. -/
def Obligations.UpdatePastTheLengthBoundFails : Prop :=
  (∀ (s : State) (nb : BitVec 3), s.phase = Phase.ready → nb.toNat ≤ 4 → 2 ^ 64 ≤ s.bitLen.toNat + 8 * nb.toNat →
    exec (.update nb) s = .next { s with err := s.err ||| 0b0001, phase := Phase.failed }) ∧
  (∀ s : State, s.phase = Phase.ready → s.bufCnt.val ≤ 63 → exec (.update 0) s = .next s)

/-- R193: dropped with BUSYCMD, the computation undisturbed. -/
def Obligations.CommandsWhileBusyAreDropped : Prop :=
  ∀ s : State, s.phase = Phase.block ∨ s.phase = Phase.final →
    (∀ nb : BitVec 3, nb.toNat ≤ 4 → exec (.update nb) s = .next { s with err := s.err ||| 0b1000 }) ∧
    exec .finalize s = .next { s with err := s.err ||| 0b1000 }

/-- R194: INVSTATE, with any NB. -/
def Obligations.CommandsAfterTheEndAreInvalid : Prop :=
  ∀ s : State, s.phase = Phase.done ∨ s.phase = Phase.failed →
    (∀ nb : BitVec 3, nb.toNat ≤ 4 → exec (.update nb) s = .next { s with err := s.err ||| 0b0010 }) ∧
    exec .finalize s = .next { s with err := s.err ||| 0b0010 }

/-- R166: FINALIZE in READY, whatever the length. -/
def Obligations.FinalizeStartsPadding : Prop :=
  ∀ s : State, s.phase = Phase.ready → exec .finalize s = .next { s with phase := Phase.final, seq := Seq.pad1 }

/-- R163, R192, with R196's order of checks: what a word written to CMD does, by R83's `legal` (which the decoder
does not use), OP and PHASE. `absorb` and `startFinal` are R165's and R166's pseudocode. -/
def Obligations.CommandDispatchChecksInOrder : Prop :=
  ∀ (v : Word) (s : State),
    (legal v = false → command v s = .next { s with err := s.err ||| 0b0100 }) ∧
    (legal v = true → opField v = 0 → command v s = .next s) ∧
    (legal v = true → opField v = 1 → command v s = exec .init s) ∧
    (legal v = true → opField v = 2 ∨ opField v = 3 →
      (s.phase = Phase.block ∨ s.phase = Phase.final → command v s = .next { s with err := s.err ||| 0b1000 }) ∧
      (s.phase = Phase.done ∨ s.phase = Phase.failed → command v s = .next { s with err := s.err ||| 0b0010 })) ∧
    (legal v = true → opField v = 2 → s.phase = Phase.ready → command v s = absorb (nbField v) s) ∧
    (legal v = true → opField v = 3 → s.phase = Phase.ready → command v s = startFinal s)

/-- R190, R191, R196, R197: every rejected command gives exactly `raise` of its one error, whatever ERR held; `raise`
sets the error's bit and, for LENOVF, enters FAILED, and changes nothing else; an accepted command that is not INIT leaves
ERR. -/
def Obligations.ErrorsArePreciseAndSingle : Prop :=
  (∀ (v : Word) (s : State), legal v = false → command v s = .next (raise .illcmd s)) ∧
  (∀ (v : Word) (s : State), legal v = true → opField v = 2 ∨ opField v = 3 →
    (s.phase = Phase.block ∨ s.phase = Phase.final → command v s = .next (raise .busycmd s)) ∧
    (s.phase = Phase.done ∨ s.phase = Phase.failed → command v s = .next (raise .invstate s)) ∧
    (s.phase = Phase.ready → opField v = 2 → 2 ^ 64 ≤ s.bitLen.toNat + 8 * (nbField v).toNat →
      command v s = .next (raise .lenovf s))) ∧
  (∀ (v : Word) (s t : State), legal v = true → command v s = .next t →
    opField v = 0 ∨ (s.phase = Phase.ready ∧ opField v = 3) ∨
      (s.phase = Phase.ready ∧ opField v = 2 ∧ s.bitLen.toNat + 8 * (nbField v).toNat < 2 ^ 64) →
    t.err = s.err) ∧
  (∀ (e : ErrCode) (s : State), raise e s =
    { s with
      err := s.err ||| (match e with | .lenovf => 0b0001 | .invstate => 0b0010 | .illcmd => 0b0100 | .busycmd => 0b1000)
      phase := if e = .lenovf then Phase.failed else s.phase })

/-! ### The micro-operations -/

/-- R172, R206: a turn of SEQ at IDLE. That it is a step which changes nothing is the model's choice (DESIGN CHOICE,
log entry 5); the spec says that SEQ has no step there. -/
def Obligations.IdleTurnChangesNothing : Prop := ∀ s : State, exec .idle s = .next s

/-- R124: PAD1, byte by byte, for both kinds of remainder. Two clauses are the model's reading: that r > 63, which R124
calls unreachable, faults (DEDUCED, log entry 10), and that BUF[64..66], which then hold no defined value, are kept
(DEDUCED, log entry 14). -/
def Obligations.PadOneBuildsTheBlock : Prop :=
  ∀ s : State,
    (s.bufCnt.val ≤ 63 →
      ∃ t, exec .pad1 s = .next t ∧
        (∀ i (_ : i < 67), t.buf[i] =
          if i < s.bufCnt.val ∨ 64 ≤ i then s.buf[i]
          else if i = s.bufCnt.val then 0x80
          else if s.bufCnt.val ≤ 55 ∧ 56 ≤ i then s.bitLen.extractLsb' (8 * (63 - i)) 8
          else 0x00) ∧
        (t.last = true ↔ s.bufCnt.val ≤ 55) ∧ t.bufCnt.val = 64 ∧ t.seq = Seq.load ∧
        t = { s with buf := t.buf, last := t.last, bufCnt := t.bufCnt, seq := t.seq }) ∧
    (63 < s.bufCnt.val → exec .pad1 s = .fault .padRemainderTooLong)

/-- R125: PAD2. That BUF[64..66], which hold no defined value, are kept is the model's reading (DEDUCED, log entry 14), and
so is that the meaning, called alone, runs in every phase (DEDUCED, log entry 20): SEQ's step runs it in FINAL only. -/
def Obligations.PadTwoBuildsTheLengthBlock : Prop :=
  ∀ s : State, ∃ t, exec .pad2 s = .next t ∧
    (∀ i (_ : i < 67), t.buf[i] =
      if 64 ≤ i then s.buf[i] else if 56 ≤ i then s.bitLen.extractLsb' (8 * (63 - i)) 8 else 0x00) ∧
    t.last = true ∧ t.bufCnt.val = 64 ∧ t.seq = Seq.load ∧
    t = { s with buf := t.buf, last := t.last, bufCnt := t.bufCnt, seq := t.seq }

/-- R133: LOAD, with the bytes carried past the block; without a whole block, the fault. That the bytes of BUF at the new
BUFCNT and above, which hold no defined value, are kept is the model's reading (DEDUCED, log entry 14). -/
def Obligations.LoadTakesTheBlock : Prop :=
  ∀ s : State,
    (64 ≤ s.bufCnt.val →
      ∃ t, exec .load s = .next t ∧
        (∀ j (_ : j < 16), t.win[j].toNat = s.buf[4 * j].toNat * 2 ^ 24 + s.buf[4 * j + 1].toNat * 2 ^ 16 +
          s.buf[4 * j + 2].toNat * 2 ^ 8 + s.buf[4 * j + 3].toNat) ∧
        t.work = ⟨s.cv[0], s.cv[1], s.cv[2], s.cv[3], s.cv[4], s.cv[5], s.cv[6], s.cv[7]⟩ ∧
        (∀ j (_ : j < s.bufCnt.val - 64) (_ : 64 + j < 67), t.buf[j] = s.buf[64 + j]) ∧
        (∀ i (_ : i < 67), s.bufCnt.val - 64 ≤ i → t.buf[i] = s.buf[i]) ∧
        t.bufCnt.val = s.bufCnt.val - 64 ∧ t.seq = Seq.round 0 ∧
        t = { s with win := t.win, work := t.work, buf := t.buf, bufCnt := t.bufCnt, seq := t.seq }) ∧
    (s.bufCnt.val < 64 → exec .load s = .fault .blockNot64Bytes)

/-- R148 with R134 (the schedule word and the window), R144, R145 and R147 (the new a..h), for every t. -/
def Obligations.RoundStepsTheWorkingRegisters : Prop :=
  ∀ (t : BitVec 6) (s : State) (w x y : Word),
    w = (if t.toNat < 16 then winAt s.win t.toNat
      else smallSigma1 (winAt s.win (t.toNat - 2)) + winAt s.win (t.toNat - 7) +
        smallSigma0 (winAt s.win (t.toNat - 15)) + winAt s.win (t.toNat - 16)) →
    x = s.work.h + bigSigma1 s.work.e + ch s.work.e s.work.f s.work.g + kTable[t.toNat]'t.isLt + w →
    y = bigSigma0 s.work.a + maj s.work.a s.work.b s.work.c →
    ∃ u, exec (.round t) s = .next u ∧
      u.work = ⟨x + y, s.work.a, s.work.b, s.work.c, s.work.d + x, s.work.e, s.work.f, s.work.g⟩ ∧
      (∀ j (_ : j < 16), u.win[j] = if 16 ≤ t.toNat ∧ j = t.toNat % 16 then w else s.win[j]) ∧
      u.seq.toNat = (if t.toNat < 63 then 0x40 + (t.toNat + 1) else 0x04) ∧
      u = { s with work := u.work, win := u.win, seq := u.seq }

/-- R170: FEED in BLOCK, in FINAL, and elsewhere. -/
def Obligations.FeedAddsTheWorkingRegisters : Prop :=
  ∀ s : State,
    (s.phase = Phase.block ∨ s.phase = Phase.final →
      ∃ t, exec .feed s = .next t ∧
        t.cv = #v[s.cv[0] + s.work.a, s.cv[1] + s.work.b, s.cv[2] + s.work.c, s.cv[3] + s.work.d,
          s.cv[4] + s.work.e, s.cv[5] + s.work.f, s.cv[6] + s.work.g, s.cv[7] + s.work.h] ∧
        (s.phase = Phase.block → t.phase = Phase.ready ∧ t.seq = Seq.idle) ∧
        (s.phase = Phase.final → t.phase = Phase.final ∧ (s.last = true → t.seq = Seq.ser) ∧
          (s.last = false → t.seq = Seq.pad2)) ∧
        t = { s with cv := t.cv, phase := t.phase, seq := t.seq }) ∧
    (s.phase ≠ Phase.block → s.phase ≠ Phase.final → exec .feed s = .fault .feedOutsideBlock)

/-- R171: SER in FINAL, and elsewhere; the Digest is readable in the very next state. -/
def Obligations.SerEntersDone : Prop :=
  ∀ s : State,
    (s.phase = Phase.final → ∃ t, exec .ser s = .next t ∧ t = { s with phase := Phase.done, seq := Seq.idle } ∧
      ∀ i : Fin 8, memRead (WinReg.digest i).offset t = s.cv[i]) ∧
    (s.phase ≠ Phase.final → exec .ser s = .fault .serOutsideFinal)

/-- R199, R42: every step of HOST and of SEQ faults in a state that R42 excludes; PHASE 5..7 and an unused SEQ code
(R28, R29) by their own reasons. That the step taken from such a state faults, that the reset event does not, and which
reason is given where several hold, is the model's reading (DEDUCED, DESIGN CHOICE, log entries 8 and 9). The first two
clauses are about the meanings called alone (DEDUCED, log entries 10 and 20). -/
def Obligations.ExcludedRegisterValuesFault : Prop :=
  (∀ (s : State) (nb : BitVec 3), 5 ≤ s.phase.toNat → nb.toNat ≤ 4 →
    exec (.update nb) s = .fault .badPhaseCode ∧ exec .finalize s = .fault .badPhaseCode) ∧
  (∀ (s : State) (nb : BitVec 3), s.phase = Phase.ready → nb.toNat ≤ 4 → s.bitLen.toNat + 8 * nb.toNat < 2 ^ 64 →
    67 < s.bufCnt.val + nb.toNat → exec (.update nb) s = .fault .bufferOverflow) ∧
  (∀ s : State, nextTurn s ≠ .reset →
    (¬ s.wf → ∃ f, step s = .fault f) ∧
    (5 ≤ s.phase.toNat → step s = .fault .badPhaseCode) ∧
    (s.phase.toNat ≤ 4 → (0x06 ≤ s.seq.toNat ∧ s.seq.toNat ≤ 0x3F) ∨ 0x80 ≤ s.seq.toNat →
      step s = .fault .badSeqCode))

/-! ### The register window -/

/-- R53: a HOST read, for every offset, in every state of R42: the value on rdata, and no side effect on the core. -/
def Obligations.HostReadReturnsTheRegister : Prop :=
  ∀ (s : State) (off : BitVec 6) (rest : List HostOp), s.wf → nextTurn s = .host → s.host = .read off :: rest →
    ∃ v : Word, step s = .next { s with host := rest, turns := s.turns.tail, rdata := some v } ∧
      (off.toNat / 4 = 0 → v = 0x53323536) ∧
      (off.toNat / 4 = 1 → v = statusWord s) ∧
      (off.toNat / 4 = 2 → v.toNat = s.err.toNat) ∧
      (off.toNat / 4 = 3 → v = 0) ∧
      (off.toNat / 4 = 4 → v = s.din) ∧
      (off.toNat / 4 = 5 → v.toNat = s.bitLen.toNat % 2 ^ 32) ∧
      (off.toNat / 4 = 6 → v.toNat = s.bitLen.toNat / 2 ^ 32) ∧
      (off.toNat / 4 = 7 → v = 0) ∧
      (∀ i (_ : i < 8), off.toNat / 4 = 8 + i → v = if s.phase = Phase.done then s.cv[i] else 0)

/-- R54: a HOST write, for every offset, in every state of R42. -/
def Obligations.HostWriteActsByRegister : Prop :=
  ∀ (s : State) (off : BitVec 6) (v : Word) (rest : List HostOp) (s0 : State),
    s.wf → nextTurn s = .host → s.host = .write off v :: rest →
    s0 = { s with host := rest, turns := s.turns.tail, rdata := none } →
      (off.toNat / 4 = 2 → step s = .next { s0 with err := s.err &&& ~~~(v.setWidth 4 &&& 0xE) }) ∧
      (off.toNat / 4 = 3 → step s = command v s0) ∧
      (off.toNat / 4 = 4 → step s = .next { s0 with din := v }) ∧
      (off.toNat / 4 ≠ 2 → off.toNat / 4 ≠ 3 → off.toNat / 4 ≠ 4 → step s = .next s0)

/-- R56: offset bits [1:0] are ignored. -/
def Obligations.UnalignedOffsetsReachTheAlignedRegister : Prop :=
  ∀ (off : BitVec 6) (v : Word) (s : State),
    memRead off s = memRead (off &&& 0x3C) s ∧ memWrite off v s = memWrite (off &&& 0x3C) v s

/-- R34: STATUS, field by field; a write to it is ignored. -/
def Obligations.StatusFieldsAreTheRegisters : Prop :=
  ∀ s : State,
    ((statusWord s).getLsbD 0 = true ↔ s.phase = Phase.block ∨ s.phase = Phase.final) ∧
    (statusWord s).extractLsb' 1 3 = s.phase ∧ (statusWord s).getLsbD 4 = s.last ∧
    (statusWord s).extractLsb' 5 3 = 0 ∧ (statusWord s).extractLsb' 8 8 = s.seq ∧
    ((statusWord s).extractLsb' 16 7).toNat = s.bufCnt.val ∧ ((statusWord s).getLsbD 23 = true ↔ s.err ≠ 0) ∧
    (statusWord s).extractLsb' 24 8 = 0 ∧ ∀ v, memWrite WinReg.status.offset v s = .next s

/-- R35, R54: a write to ERR clears bits 1 to 3 where it has ones, never bit 0, and nothing else; bits 31:4 read 0. -/
def Obligations.ErrIsWriteOneToClear : Prop :=
  ∀ (s : State) (v : Word), ∃ t, memWrite WinReg.err.offset v s = .next t ∧
    t.err.getLsbD 0 = s.err.getLsbD 0 ∧
    (∀ b, 1 ≤ b → b ≤ 3 → t.err.getLsbD b = (s.err.getLsbD b && !v.getLsbD b)) ∧
    t = { s with err := t.err } ∧
    (memRead WinReg.err.offset s).extractLsb' 0 4 = s.err ∧ (memRead WinReg.err.offset s).extractLsb' 4 28 = 0

/-- R39, R174: DIGEST0..7 hold the Digest's bytes, most significant first, in DONE and 0 elsewhere; writes to them
are ignored. -/
def Obligations.DigestRegistersHoldTheDigest : Prop :=
  ∀ (s : State) (i : Nat) (_ : i < 8),
    (s.phase = Phase.done → (serialize s.cv).length = 32 ∧ ∀ j (_ : j < 4),
      (serialize s.cv)[4 * i + j]? = some ((memRead (BitVec.ofNat 6 (0x20 + 4 * i)) s).extractLsb' (24 - 8 * j) 8) ∧
      (serialize s.cv)[4 * i + j]? = some (s.cv[i].extractLsb' (24 - 8 * j) 8)) ∧
    (s.phase ≠ Phase.done → memRead (BitVec.ofNat 6 (0x20 + 4 * i)) s = 0) ∧
    ∀ v, memWrite (BitVec.ofNat 6 (0x20 + 4 * i)) v s = .next s

/-- R22, R23, R43: no read depends on a..h, WIN or BUF, nor, outside DONE, on CV. -/
def Obligations.HiddenRegistersCannotBeRead : Prop :=
  ∀ (s : State) (off : BitVec 6) (x : Work) (win : Vector Word 16) (buf : Vector Byte 67) (cv : Vector Word 8),
    memRead off { s with work := x, win := win, buf := buf } = memRead off s ∧
    (s.phase ≠ Phase.done → memRead off { s with cv := cv } = memRead off s)

/-- R51: the window's addresses, and only they, reach the core; CORE_BASE is 64-byte aligned. -/
def Obligations.OnlyTheWindowReachesTheCore : Prop :=
  Config.coreBase % 64 = 0 ∧
  (∀ (off : BitVec 6), windowOffset (Config.coreBase + off.toNat) = some off) ∧
  (∀ (address : Nat) (w : Option Word), address < Config.coreBase ∨ Config.coreBase + 64 ≤ address →
    HostOp.atAddress address w = none)

/-- R68, R210: at a rising edge with rst high the access presented is not performed; otherwise, in a state of R42, it is
the HOST access of the register it addresses. -/
def Obligations.PinsPerformOneAccessUnlessReset : Prop :=
  ∀ (p : Pins) (s : State),
    (p.rst = true → risingEdge p s = risingEdge { p with sel := false } s ∧ risingEdge p s = .next (resetEvent s)) ∧
    (s.wf → p.rst = false → p.sel = true → p.we = false →
      ∃ t, risingEdge p s = .next t ∧ t = { s with rdata := t.rdata } ∧
        t.rdata = some (memRead (BitVec.ofNat 6 (4 * p.addr.toNat)) s)) ∧
    (s.wf → p.rst = false → p.sel = true → p.we = true →
      risingEdge p s = memWrite (BitVec.ofNat 6 (4 * p.addr.toNat)) p.wdata { s with rdata := none })

/-- R89: one round of `wait_idle` reads STATUS and goes on exactly when BUSY is 0. -/
def Obligations.PollGoesOnOnlyWhenNotBusy : Prop :=
  ∀ (s : State) (rest : List HostOp), s.wf → nextTurn s = .host → s.host = .waitIdle :: rest →
    ∃ t, step s = .next t ∧ t.rdata = some (statusWord s) ∧ t.turns = s.turns.tail ∧
      (s.phase = Phase.block ∨ s.phase = Phase.final → t.host = s.host) ∧
      (s.phase ≠ Phase.block → s.phase ≠ Phase.final → t.host = rest) ∧
      t = { s with host := t.host, turns := t.turns, rdata := t.rdata }

/-! ### Decoding -/

/-- R83: exactly eight words are legal, and they are the ones the decoder accepts. -/
def Obligations.ExactlyEightWordsAreCommands : Prop :=
  ∀ v : Word,
    (legal v = true ↔ v ∈ ([0x00000000, 0x00000001, 0x00000003, 0x00000002, 0x00000102, 0x00000202, 0x00000302,
      0x00000402] : List Word)) ∧
    (legal v = true ↔ ∃ i, decode (.cmd v) = .ok i)

/-- R80 to R83, R87: decoding inverts encoding on every well-formed instruction, and every code that decodes is the
encoding of the well-formed instruction it decodes to. -/
def Obligations.CodesAndInstructionsCorrespond : Prop :=
  (∀ i : Instr, i.wf = true → decode (encode i) = .ok i) ∧
  (∀ (c : Code) (i : Instr), decode c = .ok i → i.wf = true ∧ encode i = c)

/-- R87: the whole map of SEQ codes; HOST can read the code in STATUS and cannot write it there. -/
def Obligations.SeqCodesDecodeAsListed : Prop :=
  (∀ s : State, (memRead WinReg.status.offset s).extractLsb' 8 8 = s.seq ∧
    ∀ v, memWrite WinReg.status.offset v s = .next s) ∧
  ∀ q : BitVec 8,
    (q = 0x00 → decode (.seq q) = .ok .idle) ∧ (q = 0x01 → decode (.seq q) = .ok .pad1) ∧
    (q = 0x02 → decode (.seq q) = .ok .pad2) ∧ (q = 0x03 → decode (.seq q) = .ok .load) ∧
    (q = 0x04 → decode (.seq q) = .ok .feed) ∧ (q = 0x05 → decode (.seq q) = .ok .ser) ∧
    (∀ t : BitVec 6, q.toNat = 0x40 + t.toNat → decode (.seq q) = .ok (.round t)) ∧
    ((0x06 ≤ q.toNat ∧ q.toNat ≤ 0x3F) ∨ 0x80 ≤ q.toNat → decode (.seq q) = .error .unusedSeqCode)

/-- R83's words and R29's codes, a few of each family. -/
def Obligations.ListedWordsDecode : Prop :=
  decode (.cmd 0x00000000) = .ok .nop ∧ decode (.cmd 0x00000001) = .ok .init ∧
  decode (.cmd 0x00000402) = .ok (.update 4) ∧ decode (.cmd 0x00000003) = .ok .finalize ∧
  decode (.seq 0x01) = .ok .pad1 ∧ decode (.seq 0x03) = .ok .load ∧ decode (.seq 0x7F) = .ok (.round 63) ∧
  decode (.seq 0x04) = .ok .feed

/-! ### The step -/

/-- R54, R163: in a state of R42, a HOST write to CMD of a word that decodes runs that instruction; one that does not raises ILLCMD. -/
def Obligations.StepRunsTheCommandWritten : Prop :=
  ∀ (s : State) (off : BitVec 6) (v : Word) (rest : List HostOp) (s0 : State),
    s.wf → nextTurn s = .host → s.host = .write off v :: rest → WinReg.ofOffset off = .cmd →
    s0 = { s with host := rest, turns := s.turns.tail, rdata := none } →
      (∀ i, decode (.cmd v) = .ok i → step s = exec i s0) ∧
      (∀ e, decode (.cmd v) = .error e → step s = .next { s0 with err := s.err ||| 0b0100 })

/-- R172: in a state of R42, SEQ's step runs the micro-operation that SEQ names. -/
def Obligations.StepRunsTheMicroOperation : Prop :=
  ∀ (s : State) (i : Instr), s.wf → nextTurn s = .seq → decode (.seq s.seq) = .ok i →
    step s = exec i { s with turns := s.turns.tail, rdata := none }

/-- R210: the reset event in any state. Nothing is said of a..h, WIN and BUF, which the spec leaves unspecified; that
HOST's operations and the turns stay is the model's choice (DESIGN CHOICE, log entry 16). -/
def Obligations.ResetEventGivesTheResetValues : Prop :=
  ∀ s : State, nextTurn s = .reset →
    ∃ t, step s = .next t ∧ (∀ i (_ : i < 8), t.cv[i] = iv[i]) ∧ t.bufCnt = 0 ∧ t.bitLen = 0 ∧ t.din = 0 ∧
      t.phase = Phase.ready ∧ t.seq = Seq.idle ∧ t.last = false ∧ t.err = 0 ∧ t.host = s.host ∧
      t.turns = s.turns.tail

/-- R45, R212: what the spec gives the state after reset, from which UPDATE and FINALIZE are accepted at once. -/
def Obligations.ResetStateIsAFreshHasher : Prop :=
  State.reset.cv = iv ∧ State.reset.bufCnt = 0 ∧ State.reset.bitLen = 0 ∧ State.reset.din = 0 ∧
  State.reset.phase = Phase.ready ∧ State.reset.seq = Seq.idle ∧ State.reset.last = false ∧ State.reset.err = 0 ∧
  statusWord State.reset = 0 ∧ (∃ t, exec .finalize State.reset = .next t ∧ t.phase = Phase.final) ∧
  (∃ t, exec (.update 4) State.reset = .next t ∧ t.bufCnt = 4)

/-! ### The whole machine -/

/-- R42's table, made inductive (BITLEN a multiple of 8; BUFCNT modulo 64 at LOAD in BLOCK): every step keeps it. -/
def Obligations.EveryStepKeepsTheStateTable : Prop := ∀ s t : State, s.Inv → step s = .next t → t.Inv

/-- R42, R45: the reset state is in the table, whatever the unspecified registers, HOST's operations and the turns. -/
def Obligations.ResetIsInTheStateTable : Prop :=
  ∀ (x : Work) (win : Vector Word 16) (buf : Vector Byte 67) (host : List HostOp) (turns : List Turn),
    { State.reset with work := x, win := win, buf := buf, host := host, turns := turns }.Inv

/-- R42: every state reached from reset, under any HOST program and any interleaving, is in the table, and BITLEN is
a multiple of 8 there. -/
def Obligations.ReachableStatesAreInTheTable : Prop :=
  ∀ (x : Work) (win : Vector Word 16) (buf : Vector Byte 67) (host : List HostOp) (turns : List Turn) (n : Nat)
    (t : State),
    run n { State.reset with work := x, win := win, buf := buf, host := host, turns := turns } = .next t →
      t.wf

/-- R199, R45: from a state of R42 no step faults and none is refused. -/
def Obligations.NoFaultFromTheStateTable : Prop := ∀ s : State, s.wf → ∃ t, step s = .next t

/-- R45, R126: what is unspecified after reset never reaches anything that is not: two states that differ only there
take the same step to states that differ only there (in particular with the same rdata, ERR, STATUS and CV). -/
def Obligations.UnspecifiedContentsNeverMatter : Prop :=
  ∀ s t s' : State, s.AgreesWith t → step s = .next s' → ∃ t', step t = .next t' ∧ s'.AgreesWith t'

/-- R21: CV is written by INIT and reset (with IV) and by FEED, and by nothing else. -/
def Obligations.OnlyInitResetAndFeedWriteTheChainingValue : Prop :=
  ∀ s t : State, step s = .next t → t.cv = s.cv ∨ (nextTurn s = .reset ∧ t.cv = iv) ∨ (s.issues 1 ∧ t.cv = iv) ∨
    (nextTurn s = .seq ∧ s.seq = Seq.feed ∧ t.cv = feedForward s.cv s.work)

/-- R218, R26: BITLEN changes only by INIT, reset, and an UPDATE accepted in READY, by 8 NB; R27: DIN only by a HOST
write to it and by reset. -/
def Obligations.OnlyHostChangesLengthAndDataIn : Prop :=
  ∀ s t : State, step s = .next t →
    (t.bitLen = s.bitLen ∨ (nextTurn s = .reset ∧ t.bitLen = 0) ∨ (s.issues 1 ∧ t.bitLen = 0) ∨
      (s.phase = Phase.ready ∧ ∃ nb : BitVec 3, nb.toNat ≤ 4 ∧ s.issues (0x2 ||| nb.setWidth 32 <<< 8) ∧
        t.bitLen.toNat = s.bitLen.toNat + 8 * nb.toNat)) ∧
    (t.din = s.din ∨ nextTurn s = .reset ∨ s.writes .din)

/-- R198: FAILED and ERR bit 0 are cleared only by INIT or reset. -/
def Obligations.FailedIsLeftOnlyByInitOrReset : Prop :=
  ∀ s t : State, step s = .next t → nextTurn s ≠ .reset → ¬ s.issues 1 →
    (s.phase = Phase.failed → t.phase = Phase.failed) ∧ (s.err.getLsbD 0 = true → t.err.getLsbD 0 = true)

/-- R198: ERR bits are sticky: only INIT, reset and a write to ERR clear one. -/
def Obligations.ErrorBitsAreSticky : Prop :=
  ∀ s t : State, step s = .next t → nextTurn s ≠ .reset → ¬ s.issues 1 → ¬ s.writes .err →
    ∀ b, s.err.getLsbD b = true → t.err.getLsbD b = true

/-- R41, R172: where SEQ goes, in a step of each agent. That a turn of SEQ at IDLE is a step, which stays at IDLE, is the
model's choice (DESIGN CHOICE, log entry 5): SEQ has no step there. -/
def Obligations.SequencerFollowsTheSuccessorTable : Prop :=
  ∀ s t : State, step s = .next t →
    (nextTurn s = .reset → t.seq = Seq.idle) ∧
    (nextTurn s = .host → t.seq = s.seq ∨ (s.issues 1 ∧ t.seq = Seq.idle) ∨
      (s.phase = Phase.ready ∧ t.seq = Seq.load ∧ ∃ nb : BitVec 3, nb.toNat ≤ 4 ∧
        s.issues (0x2 ||| nb.setWidth 32 <<< 8) ∧ 64 ≤ s.bufCnt.val + nb.toNat) ∨
      (s.phase = Phase.ready ∧ s.issues 3 ∧ t.seq = Seq.pad1)) ∧
    (nextTurn s = .seq → (s.seq = Seq.idle ∧ t.seq = Seq.idle) ∨
      ((s.seq = Seq.pad1 ∨ s.seq = Seq.pad2) ∧ t.seq = Seq.load) ∨
      (s.seq = Seq.load ∧ t.seq.toNat = 0x40) ∨
      (0x40 ≤ s.seq.toNat ∧ s.seq.toNat < 0x7F ∧ t.seq.toNat = s.seq.toNat + 1) ∨
      (s.seq.toNat = 0x7F ∧ t.seq = Seq.feed) ∨
      (s.seq = Seq.feed ∧ s.phase = Phase.block ∧ t.seq = Seq.idle) ∨
      (s.seq = Seq.feed ∧ s.phase = Phase.final ∧ t.seq = if s.last then Seq.ser else Seq.pad2) ∨
      (s.seq = Seq.ser ∧ t.seq = Seq.idle))

/-- R217, R171: in DONE the Digest stays until HOST writes INIT or reset occurs. -/
def Obligations.DigestStaysUntilInitOrReset : Prop :=
  ∀ s t : State, step s = .next t → nextTurn s ≠ .reset → ¬ s.issues 1 → s.phase = Phase.done →
    t.phase = Phase.done ∧ ∀ i : Fin 8, memRead (WinReg.digest i).offset t = memRead (WinReg.digest i).offset s

/-- R172, R63: BUSY exactly while SEQ has a step, and left alone SEQ is idle after at most 135 steps (R173's
longest count). -/
def Obligations.SequencerFinishes : Prop :=
  ∀ s : State, s.Inv → (Phase.isBusy s.phase ↔ s.seq ≠ Seq.idle) ∧
    (s.turns = [] → ∃ n, n ≤ 135 ∧ ∃ t, run n s = .next t ∧ t.seq = Seq.idle ∧ ¬ Phase.isBusy t.phase)

/-! ### The computation -/

/-- R135, R136, R149, under every interleaving: LOAD of the block B starts its rounds; they go on in order through
every step but INIT and reset, each with the schedule word `expand(B)[t]`, and the 64th leaves the state of 64 rounds
at FEED. -/
def Obligations.WindowScheduleIsTheExpansion : Prop :=
  (∀ s t : State, Phase.isBusy s.phase → s.seq = Seq.load → nextTurn s = .seq → step s = .next t →
    t.InRounds (bufBlock s.buf) 0) ∧
  (∀ (s t : State) (b : Block) (n : BitVec 6), s.InRounds b n → step s = .next t →
    schedw n s.win = (expand b).getD n.toNat 0 ∧
    (nextTurn s = .host → s.issues 1 ∨ t.InRounds b n) ∧
    (nextTurn s = .seq → n.toNat < 63 → t.InRounds b (n + 1)) ∧
    (nextTurn s = .seq → n.toNat = 63 → t.seq = Seq.feed ∧ t.work = rounds (expand b) 64 (Work.ofCv t.cv)))

/-- R150, R173: from a state of R42 at LOAD, LOAD, 64 rounds and FEED, 66 steps, replace CV by compress(CV, BUF[0..63]), keep the carried bytes
and go where FEED goes. -/
def Obligations.BlockStepsComputeCompress : Prop :=
  ∀ s : State, s.Inv → s.turns = [] → s.seq = Seq.load →
    ∃ t, run 66 s = .next t ∧ t.cv = compress s.cv (bufBlock s.buf) ∧
      t.bufCnt.val = s.bufCnt.val - 64 ∧
      (∀ j (_ : j < s.bufCnt.val - 64) (_ : 64 + j < 67), t.buf[j] = s.buf[64 + j]) ∧
      (s.phase = Phase.block → t.phase = Phase.ready ∧ t.seq = Seq.idle) ∧
      (s.phase = Phase.final → t.phase = Phase.final ∧ t.seq = if s.last then Seq.ser else Seq.pad2) ∧
      t = { s with cv := t.cv, work := t.work, win := t.win, buf := t.buf, bufCnt := t.bufCnt, phase := t.phase,
                   seq := t.seq, rdata := none }

/-- R127, R161: an UPDATE in READY with the message `m` absorbed appends its bytes to `m`; if they fill a block, after
66 steps of SEQ. -/
def Obligations.UpdateAppendsToTheMessage : Prop :=
  ∀ (s : State) (m bytes : List Byte) (nb : BitVec 3), s.Holding m → s.turns = [] → nb.toNat ≤ 4 →
    8 * (m.length + nb.toNat) < 2 ^ 64 → bytes = (List.range nb.toNat).map (fun k => s.din.extractLsb' (24 - 8 * k) 8) →
    ∃ u, exec (.update nb) s = .next u ∧
      (s.bufCnt.val + nb.toNat < 64 → u.Holding (m ++ bytes)) ∧
      (64 ≤ s.bufCnt.val + nb.toNat → ∃ t, run 66 u = .next t ∧ t.Holding (m ++ bytes))

/-- R176, R173: FINALIZE with the message `m` absorbed reaches DONE, after 68 or 135 steps of SEQ, with the Digest of
`m`. -/
def Obligations.FinalizeComputesTheDigest : Prop :=
  ∀ (s : State) (m : List Byte), s.Holding m → s.turns = [] →
    ∃ u t, exec .finalize s = .next u ∧ run (if m.length % 64 ≤ 55 then 68 else 135) u = .next t ∧
      t.phase = Phase.done ∧ t.seq = Seq.idle ∧ serialize t.cv = sha256 m ∧ t.bitLen = s.bitLen ∧ t.err = s.err

/-- R176, R177, R89, R220: `oneshot M`, from any state of R42's table and under every interleaving of HOST's and
SEQ's steps without a reset event, ends in DONE with the Digest of M and no error. -/
def Obligations.OneshotComputesTheDigestUnderEverySchedule : Prop :=
  ∀ (s : State) (m : List Byte), s.Inv → s.noReset → 8 * m.length < 2 ^ 64 →
    ∃ n t, run n { s with host := Asm.oneshot m } = .next t ∧ t.host = [] ∧ t.phase = Phase.done ∧
      t.seq = Seq.idle ∧ t.err = 0 ∧ serialize t.cv = sha256 m

/-! ### The reference functions -/

/-- R177: the abstract Hasher does not see chunk boundaries, errors included. -/
def Obligations.HasherIgnoresChunkBoundaries : Prop :=
  ∀ (x : Hasher) (m₁ m₂ : List Byte),
    (match x.update m₁ with
      | .ok y => y.update m₂
      | .error e => .error e) = x.update (m₁ ++ m₂)

/-- R161, R175, R123: the incremental contract computes SHA256(M); a message of 2^61 bytes or more is a
LengthOverflow. -/
def Obligations.HasherOneshotIsTheReferenceFunction : Prop :=
  ∀ m : List Byte,
    (8 * m.length < 2 ^ 64 → Hasher.oneshot m = .ok (sha256 m)) ∧
    (2 ^ 64 ≤ 8 * m.length → Hasher.oneshot m = .error .lengthOverflow)

/-- R121, R120: pad(M) is ceil((L + 9) / 64) blocks, whose bytes are M, 0x80, (55 - L) mod 64 zeros and be64(8L). For
L ≥ 2^61, where the spec defines no padding, the length is taken modulo 2^64: the model's choice (DESIGN CHOICE, log entry
19). -/
def Obligations.PaddingLengthAndContents : Prop :=
  ∀ m : List Byte, (pad m).length = (m.length + 9 + 63) / 64 ∧
    (pad m).flatMap (fun b => b.toList) =
      m ++ 0x80 :: (List.replicate ((55 + 64 - m.length % 64) % 64) 0x00 ++ be64 (BitVec.ofNat 64 (8 * m.length)))

/-- R104, R105: rotation moves bit (i + n) mod 32 to bit i; the shift divides by 2^n. R130, R131, R140, R141: the four
sigma functions, bit by bit, with the amounts of each (a shift by n brings in zeros from bit 32 - n on). -/
def Obligations.RotationAndShiftByBits : Prop :=
  (∀ (x : Word) (n : Nat), 1 ≤ n → n ≤ 31 →
    (∀ i, i < 32 → (rotr x n).getLsbD i = x.getLsbD ((i + n) % 32)) ∧ (shr x n).toNat = x.toNat / 2 ^ n) ∧
  (∀ (x : Word) (i : Nat), i < 32 →
    (smallSigma0 x).getLsbD i =
      (x.getLsbD ((i + 7) % 32) ^^ x.getLsbD ((i + 18) % 32) ^^ (decide (i < 29) && x.getLsbD (i + 3))) ∧
    (smallSigma1 x).getLsbD i =
      (x.getLsbD ((i + 17) % 32) ^^ x.getLsbD ((i + 19) % 32) ^^ (decide (i < 22) && x.getLsbD (i + 10))) ∧
    (bigSigma0 x).getLsbD i = (x.getLsbD ((i + 2) % 32) ^^ x.getLsbD ((i + 13) % 32) ^^ x.getLsbD ((i + 22) % 32)) ∧
    (bigSigma1 x).getLsbD i = (x.getLsbD ((i + 6) % 32) ^^ x.getLsbD ((i + 11) % 32) ^^ x.getLsbD ((i + 25) % 32)))

/-- R142, R143: Ch chooses and Maj takes the majority, bit by bit. -/
def Obligations.ChooseAndMajorityByBits : Prop :=
  ∀ (x y z : Word) (i : Nat), i < 32 →
    (ch x y z).getLsbD i = (if x.getLsbD i then y.getLsbD i else z.getLsbD i) ∧
    ((maj x y z).getLsbD i = true ↔ 2 ≤ (x.getLsbD i).toNat + (y.getLsbD i).toNat + (z.getLsbD i).toNat)

/-- R107, R108: big-endian assembly, and its inverses. -/
def Obligations.BigEndianBytes : Prop :=
  (∀ b0 b1 b2 b3 : Byte,
    (be32 b0 b1 b2 b3).toNat = b0.toNat * 2 ^ 24 + b1.toNat * 2 ^ 16 + b2.toNat * 2 ^ 8 + b3.toNat ∧
    bytes32 (be32 b0 b1 b2 b3) = [b0, b1, b2, b3]) ∧
  (∀ (n : BitVec 64), (be64 n).length = 8 ∧ ∀ j, j < 8 → (be64 n)[j]? = some (n.extractLsb' (56 - 8 * j) 8))

/-- R146, R160: the tables are the first 32 bits of the fractional parts of the cube roots of the first 64 primes and
of the square roots of the first 8: with the root's integer part in front, each is the floor of the root times 2^32. -/
def Obligations.TablesAreRootsOfPrimes : Prop :=
  primesTo311.length = 64 ∧
  (∀ t : Fin 64, ∃ c : Nat, c % 2 ^ 32 = kTable[t].toNat ∧ c ^ 3 ≤ primesTo311.getD t.val 0 * 2 ^ 96 ∧
    primesTo311.getD t.val 0 * 2 ^ 96 < (c + 1) ^ 3) ∧
  (∀ i : Fin 8, ∃ c : Nat, c % 2 ^ 32 = iv[i].toNat ∧ c ^ 2 ≤ primesTo311.getD i.val 0 * 2 ^ 64 ∧
    primesTo311.getD i.val 0 * 2 ^ 64 < (c + 1) ^ 2)
end

