-- ==== Sys2Proof/Laws/State.lean ====
section
/-! SUPPORT. One lemma per field of State per named update, each true by rfl, so that no proof unfolds a record
update. -/

namespace Sys2Proof.Machine

@[simp] theorem raise_cv (e : ErrCode) (s : State) : (raise e s).cv = s.cv := rfl
@[simp] theorem raise_work (e : ErrCode) (s : State) : (raise e s).work = s.work := rfl
@[simp] theorem raise_win (e : ErrCode) (s : State) : (raise e s).win = s.win := rfl
@[simp] theorem raise_buf (e : ErrCode) (s : State) : (raise e s).buf = s.buf := rfl
@[simp] theorem raise_bufCnt (e : ErrCode) (s : State) : (raise e s).bufCnt = s.bufCnt := rfl
@[simp] theorem raise_bitLen (e : ErrCode) (s : State) : (raise e s).bitLen = s.bitLen := rfl
@[simp] theorem raise_din (e : ErrCode) (s : State) : (raise e s).din = s.din := rfl
@[simp] theorem raise_phase (e : ErrCode) (s : State) : (raise e s).phase = if e = .lenovf then Phase.failed else s.phase := rfl
@[simp] theorem raise_seq (e : ErrCode) (s : State) : (raise e s).seq = s.seq := rfl
@[simp] theorem raise_last (e : ErrCode) (s : State) : (raise e s).last = s.last := rfl
@[simp] theorem raise_err (e : ErrCode) (s : State) : (raise e s).err = s.err ||| e.bit := rfl
@[simp] theorem raise_rdata (e : ErrCode) (s : State) : (raise e s).rdata = s.rdata := rfl
@[simp] theorem raise_host (e : ErrCode) (s : State) : (raise e s).host = s.host := rfl
@[simp] theorem raise_turns (e : ErrCode) (s : State) : (raise e s).turns = s.turns := rfl
@[simp] theorem raise_draws (e : ErrCode) (s : State) : (raise e s).draws = s.draws := rfl

@[simp] theorem clearErrors_cv (v : Word) (s : State) : (clearErrors v s).cv = s.cv := rfl
@[simp] theorem clearErrors_work (v : Word) (s : State) : (clearErrors v s).work = s.work := rfl
@[simp] theorem clearErrors_win (v : Word) (s : State) : (clearErrors v s).win = s.win := rfl
@[simp] theorem clearErrors_buf (v : Word) (s : State) : (clearErrors v s).buf = s.buf := rfl
@[simp] theorem clearErrors_bufCnt (v : Word) (s : State) : (clearErrors v s).bufCnt = s.bufCnt := rfl
@[simp] theorem clearErrors_bitLen (v : Word) (s : State) : (clearErrors v s).bitLen = s.bitLen := rfl
@[simp] theorem clearErrors_din (v : Word) (s : State) : (clearErrors v s).din = s.din := rfl
@[simp] theorem clearErrors_phase (v : Word) (s : State) : (clearErrors v s).phase = s.phase := rfl
@[simp] theorem clearErrors_seq (v : Word) (s : State) : (clearErrors v s).seq = s.seq := rfl
@[simp] theorem clearErrors_last (v : Word) (s : State) : (clearErrors v s).last = s.last := rfl
@[simp] theorem clearErrors_err (v : Word) (s : State) : (clearErrors v s).err = errAfterWrite s.err v := rfl
@[simp] theorem clearErrors_rdata (v : Word) (s : State) : (clearErrors v s).rdata = s.rdata := rfl
@[simp] theorem clearErrors_host (v : Word) (s : State) : (clearErrors v s).host = s.host := rfl
@[simp] theorem clearErrors_turns (v : Word) (s : State) : (clearErrors v s).turns = s.turns := rfl
@[simp] theorem clearErrors_draws (v : Word) (s : State) : (clearErrors v s).draws = s.draws := rfl

@[simp] theorem padded_cv (l : Bool) (b : Vector Byte 67) (s : State) : (padded l b s).cv = s.cv := rfl
@[simp] theorem padded_work (l : Bool) (b : Vector Byte 67) (s : State) : (padded l b s).work = s.work := rfl
@[simp] theorem padded_win (l : Bool) (b : Vector Byte 67) (s : State) : (padded l b s).win = s.win := rfl
@[simp] theorem padded_buf (l : Bool) (b : Vector Byte 67) (s : State) : (padded l b s).buf = b := rfl
@[simp] theorem padded_bufCnt (l : Bool) (b : Vector Byte 67) (s : State) : (padded l b s).bufCnt = 64 := rfl
@[simp] theorem padded_bitLen (l : Bool) (b : Vector Byte 67) (s : State) : (padded l b s).bitLen = s.bitLen := rfl
@[simp] theorem padded_din (l : Bool) (b : Vector Byte 67) (s : State) : (padded l b s).din = s.din := rfl
@[simp] theorem padded_phase (l : Bool) (b : Vector Byte 67) (s : State) : (padded l b s).phase = s.phase := rfl
@[simp] theorem padded_seq (l : Bool) (b : Vector Byte 67) (s : State) : (padded l b s).seq = Seq.load := rfl
@[simp] theorem padded_last (l : Bool) (b : Vector Byte 67) (s : State) : (padded l b s).last = l := rfl
@[simp] theorem padded_err (l : Bool) (b : Vector Byte 67) (s : State) : (padded l b s).err = s.err := rfl
@[simp] theorem padded_rdata (l : Bool) (b : Vector Byte 67) (s : State) : (padded l b s).rdata = s.rdata := rfl
@[simp] theorem padded_host (l : Bool) (b : Vector Byte 67) (s : State) : (padded l b s).host = s.host := rfl
@[simp] theorem padded_turns (l : Bool) (b : Vector Byte 67) (s : State) : (padded l b s).turns = s.turns := rfl
@[simp] theorem padded_draws (l : Bool) (b : Vector Byte 67) (s : State) : (padded l b s).draws = s.draws := rfl

@[simp] theorem readAccess_cv (off : BitVec 6) (s : State) : (readAccess off s).cv = s.cv := rfl
@[simp] theorem readAccess_work (off : BitVec 6) (s : State) : (readAccess off s).work = s.work := rfl
@[simp] theorem readAccess_win (off : BitVec 6) (s : State) : (readAccess off s).win = s.win := rfl
@[simp] theorem readAccess_buf (off : BitVec 6) (s : State) : (readAccess off s).buf = s.buf := rfl
@[simp] theorem readAccess_bufCnt (off : BitVec 6) (s : State) : (readAccess off s).bufCnt = s.bufCnt := rfl
@[simp] theorem readAccess_bitLen (off : BitVec 6) (s : State) : (readAccess off s).bitLen = s.bitLen := rfl
@[simp] theorem readAccess_din (off : BitVec 6) (s : State) : (readAccess off s).din = s.din := rfl
@[simp] theorem readAccess_phase (off : BitVec 6) (s : State) : (readAccess off s).phase = s.phase := rfl
@[simp] theorem readAccess_seq (off : BitVec 6) (s : State) : (readAccess off s).seq = s.seq := rfl
@[simp] theorem readAccess_last (off : BitVec 6) (s : State) : (readAccess off s).last = s.last := rfl
@[simp] theorem readAccess_err (off : BitVec 6) (s : State) : (readAccess off s).err = s.err := rfl
@[simp] theorem readAccess_rdata (off : BitVec 6) (s : State) : (readAccess off s).rdata = some (memRead off s) := rfl
@[simp] theorem readAccess_host (off : BitVec 6) (s : State) : (readAccess off s).host = s.host := rfl
@[simp] theorem readAccess_turns (off : BitVec 6) (s : State) : (readAccess off s).turns = s.turns := rfl
@[simp] theorem readAccess_draws (off : BitVec 6) (s : State) : (readAccess off s).draws = s.draws := rfl

@[simp] theorem beginStep_cv (s : State) : (beginStep s).cv = s.cv := rfl
@[simp] theorem beginStep_work (s : State) : (beginStep s).work = s.work := rfl
@[simp] theorem beginStep_win (s : State) : (beginStep s).win = s.win := rfl
@[simp] theorem beginStep_buf (s : State) : (beginStep s).buf = s.buf := rfl
@[simp] theorem beginStep_bufCnt (s : State) : (beginStep s).bufCnt = s.bufCnt := rfl
@[simp] theorem beginStep_bitLen (s : State) : (beginStep s).bitLen = s.bitLen := rfl
@[simp] theorem beginStep_din (s : State) : (beginStep s).din = s.din := rfl
@[simp] theorem beginStep_phase (s : State) : (beginStep s).phase = s.phase := rfl
@[simp] theorem beginStep_seq (s : State) : (beginStep s).seq = s.seq := rfl
@[simp] theorem beginStep_last (s : State) : (beginStep s).last = s.last := rfl
@[simp] theorem beginStep_err (s : State) : (beginStep s).err = s.err := rfl
@[simp] theorem beginStep_rdata (s : State) : (beginStep s).rdata = none := rfl
@[simp] theorem beginStep_host (s : State) : (beginStep s).host = s.host := rfl
@[simp] theorem beginStep_turns (s : State) : (beginStep s).turns = s.turns.tail := rfl
@[simp] theorem beginStep_draws (s : State) : (beginStep s).draws = s.draws := rfl

@[simp] theorem resetEvent_cv (s : State) : (resetEvent s).cv = iv := rfl
@[simp] theorem resetEvent_bufCnt (s : State) : (resetEvent s).bufCnt = 0 := rfl
@[simp] theorem resetEvent_bitLen (s : State) : (resetEvent s).bitLen = 0 := rfl
@[simp] theorem resetEvent_din (s : State) : (resetEvent s).din = 0 := rfl
@[simp] theorem resetEvent_phase (s : State) : (resetEvent s).phase = Phase.ready := rfl
@[simp] theorem resetEvent_seq (s : State) : (resetEvent s).seq = Seq.idle := rfl
@[simp] theorem resetEvent_last (s : State) : (resetEvent s).last = false := rfl
@[simp] theorem resetEvent_err (s : State) : (resetEvent s).err = 0 := rfl
@[simp] theorem resetEvent_rdata (s : State) : (resetEvent s).rdata = none := rfl
@[simp] theorem resetEvent_host (s : State) : (resetEvent s).host = s.host := rfl
@[simp] theorem resetEvent_turns (s : State) : (resetEvent s).turns = s.turns := rfl
@[simp] theorem resetEvent_draws (s : State) : (resetEvent s).draws = s.draws + 1 := rfl

end Sys2Proof.Machine
end

