-- ==== Sys2Proof/Laws/Ops.lean ====
section
/-! SUPPORT. For each shared operation, everything it can do, said once: byte stores, the phase checks, absorbing,
register access, and the step of each agent. Later proofs cite these and do not unfold the operations. -/

namespace Sys2Proof.Machine

/-! ### Byte stores -/

theorem storeBytes_getElem (start : Nat) (bytes : List Byte) (buf : Vector Byte 67) (i : Nat) (h : i < 67) :
    (storeBytes start bytes buf)[i] =
      if start ≤ i ∧ i < start + bytes.length then bytes.getD (i - start) 0 else buf[i] := by
  simp [storeBytes]

theorem storeBytes_inside {start : Nat} {bytes : List Byte} {buf : Vector Byte 67} {k : Nat}
    (hk : k < bytes.length) (h : start + k < 67) : (storeBytes start bytes buf)[start + k] = bytes[k] := by
  rw [storeBytes_getElem, if_pos ⟨by omega, by omega⟩]
  simp [hk]

theorem storeBytes_outside {start : Nat} {bytes : List Byte} {buf : Vector Byte 67} {i : Nat} (h : i < 67)
    (out : i < start ∨ start + bytes.length ≤ i) : (storeBytes start bytes buf)[i] = buf[i] := by
  rw [storeBytes_getElem, if_neg (by omega)]

@[simp] theorem dinBytes_length (nb : BitVec 3) (din : Word) : (dinBytes nb din).length = nb.toNat := by
  simp [dinBytes]

theorem dinBytes_getElem (nb : BitVec 3) (din : Word) (k : Nat) (h : k < (dinBytes nb din).length) :
    (dinBytes nb din)[k] = dinByte din k := by
  simp [dinBytes]

@[simp] theorem bytes32_length (x : Word) : (bytes32 x).length = 4 := rfl

@[simp] theorem be64_length (n : BitVec 64) : (be64 n).length = 8 := rfl

theorem carriedBytes_length (s : State) : (carriedBytes s).length = s.bufCnt.val - 64 := by
  have := s.bufCnt.isLt
  simp [carriedBytes]
  omega

/-! ### The padding function's zero bytes -/

/-- R120: the loop stops after `(55 - L) mod 64` bytes, where L + 1 is the length so far. -/
theorem zeroFill_eq_append (fuel : Nat) (s : List Byte) (n : Nat) (hn : n ≤ fuel) (stop : (s.length + n) % 64 = 56)
    (first : ∀ k < n, (s.length + k) % 64 ≠ 56) : zeroFill fuel s = s ++ List.replicate n 0x00 := by
  induction fuel generalizing s n with
  | zero => simp [zeroFill, Nat.le_zero.mp hn]
  | succ fuel ih =>
    cases n with
    | zero => simp_all [zeroFill]
    | succ n =>
      have h0 : s.length % 64 ≠ 56 := first 0 (by omega)
      rw [zeroFill, if_neg h0, ih (s ++ [0x00]) n (by omega)]
      · simp [List.replicate_succ]
      · rw [List.length_append, List.length_singleton]; omega
      · intro k hk
        have := first (k + 1) (by omega)
        rw [List.length_append, List.length_singleton]; omega

/-! ### The phase checks -/

/-- Everything `whenReady` can do. -/
theorem whenReady_cases (f : State → Result) (s : State) :
    (Phase.isBusy s.phase ∧ whenReady f s = .next (raise .busycmd s)) ∨
    ((s.phase = Phase.done ∨ s.phase = Phase.failed) ∧ whenReady f s = .next (raise .invstate s)) ∨
    (s.phase = Phase.ready ∧ whenReady f s = f s) ∨
    (5 ≤ s.phase.toNat ∧ whenReady f s = .fault .badPhaseCode) := by
  unfold whenReady
  split
  · exact .inl ⟨‹_›, rfl⟩
  · split
    · exact .inr (.inl ⟨‹_›, rfl⟩)
    · split
      · exact .inr (.inr (.inl ⟨‹_›, rfl⟩))
      · refine .inr (.inr (.inr ⟨?_, rfl⟩))
        generalize s.phase = p at *
        revert p
        decide

theorem whenReady_of_ready {f : State → Result} {s : State} (h : s.phase = Phase.ready) : whenReady f s = f s := by
  simp [whenReady, h]

theorem whenReady_of_busy {f : State → Result} {s : State} (h : Phase.isBusy s.phase) :
    whenReady f s = .next (raise .busycmd s) := by
  simp only [whenReady, if_pos h]

theorem whenReady_of_finished {f : State → Result} {s : State} (h : s.phase = Phase.done ∨ s.phase = Phase.failed) :
    whenReady f s = .next (raise .invstate s) := by
  rcases h with h | h <;> simp [whenReady, h]

/-! ### What a next state of each meaning is -/

/-- The state after an accepted UPDATE of `nb` bytes (R165). -/
def absorbed (nb : BitVec 3) (s : State) : State :=
  { s with
    buf := storeBytes s.bufCnt.val (dinBytes nb s.din) s.buf
    bufCnt := Fin.ofNat 68 (s.bufCnt.val + nb.toNat)
    bitLen := s.bitLen + BitVec.ofNat 64 (8 * nb.toNat)
    phase := if 64 ≤ s.bufCnt.val + nb.toNat then Phase.block else s.phase
    seq := if 64 ≤ s.bufCnt.val + nb.toNat then Seq.load else s.seq }

@[simp] theorem absorbed_cv (nb : BitVec 3) (s : State) : (absorbed nb s).cv = s.cv := by
  simp only [absorbed]
@[simp] theorem absorbed_work (nb : BitVec 3) (s : State) : (absorbed nb s).work = s.work := by
  simp only [absorbed]
@[simp] theorem absorbed_win (nb : BitVec 3) (s : State) : (absorbed nb s).win = s.win := by
  simp only [absorbed]
@[simp] theorem absorbed_buf (nb : BitVec 3) (s : State) :
    (absorbed nb s).buf = storeBytes s.bufCnt.val (dinBytes nb s.din) s.buf := by
  simp only [absorbed]
@[simp] theorem absorbed_bufCnt (nb : BitVec 3) (s : State) :
    (absorbed nb s).bufCnt = Fin.ofNat 68 (s.bufCnt.val + nb.toNat) := by
  simp only [absorbed]
@[simp] theorem absorbed_bitLen (nb : BitVec 3) (s : State) :
    (absorbed nb s).bitLen = s.bitLen + BitVec.ofNat 64 (8 * nb.toNat) := by
  simp only [absorbed]
@[simp] theorem absorbed_din (nb : BitVec 3) (s : State) : (absorbed nb s).din = s.din := by
  simp only [absorbed]
@[simp] theorem absorbed_phase (nb : BitVec 3) (s : State) :
    (absorbed nb s).phase = if 64 ≤ s.bufCnt.val + nb.toNat then Phase.block else s.phase := by
  simp only [absorbed]
@[simp] theorem absorbed_seq (nb : BitVec 3) (s : State) :
    (absorbed nb s).seq = if 64 ≤ s.bufCnt.val + nb.toNat then Seq.load else s.seq := by
  simp only [absorbed]
@[simp] theorem absorbed_last (nb : BitVec 3) (s : State) : (absorbed nb s).last = s.last := by
  simp only [absorbed]
@[simp] theorem absorbed_err (nb : BitVec 3) (s : State) : (absorbed nb s).err = s.err := by
  simp only [absorbed]
@[simp] theorem absorbed_rdata (nb : BitVec 3) (s : State) : (absorbed nb s).rdata = s.rdata := by
  simp only [absorbed]
@[simp] theorem absorbed_host (nb : BitVec 3) (s : State) : (absorbed nb s).host = s.host := by
  simp only [absorbed]
@[simp] theorem absorbed_turns (nb : BitVec 3) (s : State) : (absorbed nb s).turns = s.turns := by
  simp only [absorbed]
@[simp] theorem absorbed_draws (nb : BitVec 3) (s : State) : (absorbed nb s).draws = s.draws := by
  simp only [absorbed]

/-- Everything `absorb` can do. -/
theorem absorb_cases (nb : BitVec 3) (s : State) :
    (2 ^ 64 ≤ s.bitLen.toNat + 8 * nb.toNat ∧ absorb nb s = .next (raise .lenovf s)) ∨
    (s.bitLen.toNat + 8 * nb.toNat < 2 ^ 64 ∧ 67 < s.bufCnt.val + nb.toNat ∧ absorb nb s = .fault .bufferOverflow) ∨
    (s.bitLen.toNat + 8 * nb.toNat < 2 ^ 64 ∧ s.bufCnt.val + nb.toNat ≤ 67 ∧ absorb nb s = .next (absorbed nb s)) := by
  unfold absorb
  split
  · exact .inl ⟨‹_›, rfl⟩
  · split
    · exact .inr (.inl ⟨by omega, ‹_›, rfl⟩)
    · exact .inr (.inr ⟨by omega, by omega, rfl⟩)

/-- The next states of UPDATE, over every phase and operand. -/
theorem execUpdate_next {nb : BitVec 3} {s t : State} (h : execUpdate nb s = .next t) :
    (4 < nb.toNat ∧ t = raise .illcmd s) ∨
    (Phase.isBusy s.phase ∧ t = raise .busycmd s) ∨
    ((s.phase = Phase.done ∨ s.phase = Phase.failed) ∧ t = raise .invstate s) ∨
    (s.phase = Phase.ready ∧ 2 ^ 64 ≤ s.bitLen.toNat + 8 * nb.toNat ∧ t = raise .lenovf s) ∨
    (nb.toNat ≤ 4 ∧ s.phase = Phase.ready ∧ s.bitLen.toNat + 8 * nb.toNat < 2 ^ 64 ∧
      s.bufCnt.val + nb.toNat ≤ 67 ∧ t = absorbed nb s) := by
  unfold execUpdate at h
  split at h
  · rename_i hnb
    rcases whenReady_cases (absorb nb) s with ⟨hp, e⟩ | ⟨hp, e⟩ | ⟨hp, e⟩ | ⟨-, e⟩ <;> rw [e] at h
    · cases h; exact .inr (.inl ⟨hp, rfl⟩)
    · cases h; exact .inr (.inr (.inl ⟨hp, rfl⟩))
    · rcases absorb_cases nb s with ⟨hl, e⟩ | ⟨-, -, e⟩ | ⟨hl, hc, e⟩ <;> rw [e] at h <;> cases h
      · exact .inr (.inr (.inr (.inl ⟨hp, hl, rfl⟩)))
      · exact .inr (.inr (.inr (.inr ⟨hnb, hp, hl, hc, rfl⟩)))
    · cases h
  · cases h; exact .inl ⟨by omega, rfl⟩

/-- The next states of FINALIZE. -/
theorem execFinalize_next {s t : State} (h : execFinalize s = .next t) :
    (Phase.isBusy s.phase ∧ t = raise .busycmd s) ∨
    ((s.phase = Phase.done ∨ s.phase = Phase.failed) ∧ t = raise .invstate s) ∨
    (s.phase = Phase.ready ∧ t = { s with phase := Phase.final, seq := Seq.pad1 }) := by
  unfold execFinalize at h
  rcases whenReady_cases startFinal s with ⟨hp, e⟩ | ⟨hp, e⟩ | ⟨hp, e⟩ | ⟨-, e⟩ <;> rw [e] at h
  · cases h; exact .inl ⟨hp, rfl⟩
  · cases h; exact .inr (.inl ⟨hp, rfl⟩)
  · cases h; exact .inr (.inr ⟨hp, rfl⟩)
  · cases h

/-- The next states of PAD1. -/
theorem execPad1_next {s t : State} (h : execPad1 s = .next t) :
    (s.bufCnt.val ≤ 55 ∧ t = padded true (storeBytes s.bufCnt.val
      (0x80 :: List.replicate (55 - s.bufCnt.val) 0x00 ++ be64 s.bitLen) s.buf) s) ∨
    (56 ≤ s.bufCnt.val ∧ s.bufCnt.val ≤ 63 ∧ t = padded false (storeBytes s.bufCnt.val
      (0x80 :: List.replicate (63 - s.bufCnt.val) 0x00) s.buf) s) := by
  simp only [execPad1] at h
  split at h
  · cases h; exact .inl ⟨‹_›, rfl⟩
  · split at h <;> cases h
    exact .inr ⟨by omega, ‹_›, rfl⟩

/-- The next states of LOAD. -/
theorem execLoad_next {s t : State} (h : execLoad s = .next t) :
    64 ≤ s.bufCnt.val ∧ t = { s with
      win := Vector.ofFn (bufWord s.buf), work := Work.ofCv s.cv, buf := storeBytes 0 (carriedBytes s) s.buf,
      bufCnt := Fin.ofNat 68 (s.bufCnt.val - 64), seq := Seq.round 0 } := by
  unfold execLoad at h
  split at h <;> cases h
  exact ⟨by omega, rfl⟩

/-- The next states of FEED. -/
theorem execFeed_next {s t : State} (h : execFeed s = .next t) :
    (s.phase = Phase.block ∧
      t = { s with cv := feedForward s.cv s.work, phase := Phase.ready, seq := Seq.idle }) ∨
    (s.phase = Phase.final ∧
      t = { s with cv := feedForward s.cv s.work, seq := if s.last then Seq.ser else Seq.pad2 }) := by
  unfold execFeed at h
  split at h
  · cases h; exact .inl ⟨‹_›, rfl⟩
  · split at h <;> cases h
    exact .inr ⟨‹_›, rfl⟩

/-- The next states of SER. -/
theorem execSer_next {s t : State} (h : execSer s = .next t) :
    s.phase = Phase.final ∧ t = { s with phase := Phase.done, seq := Seq.idle } := by
  unfold execSer at h
  split at h <;> cases h
  exact ⟨‹_›, rfl⟩

/-! ### The states of R42 -/

/-- R199's check passes exactly in the states of R42. -/
theorem violation_eq_none_iff (s : State) : s.violation = none ↔ s.wf := by
  constructor
  · intro h
    unfold State.violation at h
    split at h <;> [cases h; skip]
    split at h <;> [cases h; skip]
    split at h <;> [cases h; skip]
    split at h <;> [cases h; skip]
    split at h <;> [cases h; skip]
    split at h <;> [cases h; skip]
    split at h
    · assumption
    · cases h
  · intro h
    unfold State.violation
    have hw := h
    obtain ⟨-, row⟩ := hw
    have phase : ¬ 5 ≤ s.phase.toNat := by
      rcases row with r | r | r | r | r | r | r | r | r | r <;> simp [r.1]
    have code : s.seq.toNat ≤ 5 ∨ Seq.isRound s.seq := by
      rcases row with ⟨-, q, -⟩ | ⟨-, q, -⟩ | ⟨-, q | q, -⟩ | ⟨-, q, -⟩ | ⟨-, q, -⟩ | ⟨-, q | q, -⟩ | ⟨-, q, -⟩ |
        ⟨-, q, -⟩ | ⟨-, q, -⟩ | ⟨-, q, -⟩ <;> first | exact .inr q | exact .inl (by rw [q]; decide)
    have load : ¬ (s.seq = Seq.load ∧ s.bufCnt.val < 64) := by
      rintro ⟨q, lt⟩
      simp [State.inTable, q, Seq.isRound] at row
      omega
    have feed : ¬ (s.seq = Seq.feed ∧ ¬ Phase.isBusy s.phase) := by
      rintro ⟨q, idle⟩
      simp_all [State.inTable, Seq.isRound]
    have ser : ¬ (s.seq = Seq.ser ∧ s.phase ≠ Phase.final) := by
      rintro ⟨q, ne⟩
      simp_all [State.inTable, Seq.isRound]
    have pad1 : ¬ (s.seq = Seq.pad1 ∧ 63 < s.bufCnt.val) := by
      rintro ⟨q, gt⟩
      simp [State.inTable, q, Seq.isRound] at row
      omega
    rw [if_neg phase, if_neg (not_not.mpr code), if_neg load, if_neg feed, if_neg ser, if_neg pad1, if_pos h]

/-- `atCode` reaches a state of R42 for every SEQ code that R29 lists. -/
theorem atCode_wf {q : BitVec 8} {s : State} (len : s.bitLen.toNat % 8 = 0) (code : q.toNat ≤ 5 ∨ Seq.isRound q) :
    (s.atCode q).wf := by
  unfold State.atCode
  split
  · assumption
  · refine ⟨len, ?_⟩
    have rem : s.lengthMod < 64 := Nat.mod_lt _ (by decide)
    have fits : (Fin.ofNat 68 s.lengthMod).val = s.lengthMod := Nat.mod_eq_of_lt (by omega)
    have listed : q = Seq.idle ∨ q = Seq.pad1 ∨ q = Seq.pad2 ∨ q = Seq.load ∨ q = Seq.feed ∨ q = Seq.ser ∨
        Seq.isRound q := by
      have all : ∀ p : BitVec 8, p.toNat ≤ 5 ∨ Seq.isRound p → p = Seq.idle ∨ p = Seq.pad1 ∨ p = Seq.pad2 ∨
          p = Seq.load ∨ p = Seq.feed ∨ p = Seq.ser ∨ Seq.isRound p := by decide
      exact all q code
    rcases listed with rfl | rfl | rfl | rfl | rfl | rfl | round
    · exact .inl ⟨rfl, rfl, fits.le.trans (by omega), fits, rfl⟩
    · exact .inr (.inr (.inr (.inl ⟨rfl, rfl, fits.le.trans (by omega), fits, rfl⟩)))
    · exact .inr (.inr (.inr (.inr (.inr (.inr (.inl ⟨rfl, rfl, rfl, rfl⟩))))))
    · exact .inr (.inr (.inr (.inr (.inl ⟨rfl, rfl, rfl⟩))))
    · exact .inr (.inr (.inr (.inr (.inr (.inl ⟨rfl, .inr rfl, rfl⟩)))))
    · exact .inr (.inr (.inr (.inr (.inr (.inr (.inr (.inl ⟨rfl, rfl, rfl, rfl⟩)))))))
    · have idle : q ≠ Seq.idle := by rintro rfl; exact absurd round (by decide)
      have pad : q ≠ Seq.pad1 := by rintro rfl; exact absurd round (by decide)
      have load : q ≠ Seq.load := by rintro rfl; exact absurd round (by decide)
      refine .inr (.inr (.inr (.inr (.inr (.inl ⟨if_neg idle, .inl round, ?_⟩)))))
      show (if q = Seq.idle ∨ q = Seq.pad1 then _ else if q = Seq.load then _ else (0 : Fin 68)).val = 0
      rw [if_neg (not_or.mpr ⟨idle, pad⟩), if_neg load]
      rfl

/-- Everything `whenReached` can do. -/
theorem whenReached_cases (turn : State → Result) (s : State) :
    (s.wf ∧ whenReached turn s = turn s) ∨ (¬ s.wf ∧ ∃ f, s.violation = some f ∧ whenReached turn s = .fault f) := by
  unfold whenReached
  cases h : s.violation with
  | none => exact .inl ⟨(violation_eq_none_iff s).mp h, rfl⟩
  | some f =>
    refine .inr ⟨fun wf => ?_, f, rfl, rfl⟩
    rw [(violation_eq_none_iff s).mpr wf] at h
    cases h

theorem whenReached_of_wf {turn : State → Result} {s : State} (h : s.wf) : whenReached turn s = turn s := by
  rw [whenReached, (violation_eq_none_iff s).mpr h]

/-! ### The steps of the agents -/

/-- Everything SEQ's turn can do. -/
theorem seqTurn_cases (s : State) :
    (∃ i, decode (.seq s.seq) = .ok i ∧ seqTurn s = exec i s) ∨ seqTurn s = .fault .badSeqCode := by
  unfold seqTurn
  cases h : decode (.seq s.seq) with
  | ok i => exact .inl ⟨i, rfl, rfl⟩
  | error e => exact .inr rfl

/-- Everything a write of `v` to CMD can do. -/
theorem command_cases (v : Word) (s : State) :
    (∃ i, decode (.cmd v) = .ok i ∧ command v s = exec i s) ∨
    (∃ e, decode (.cmd v) = .error e ∧ command v s = .next (raise .illcmd s)) := by
  unfold command
  cases h : decode (.cmd v) with
  | ok i => exact .inl ⟨i, rfl, rfl⟩
  | error e => exact .inr ⟨e, rfl, rfl⟩

/-- Everything a register write can do: CMD is a command, ERR and DIN are written, the others ignore it. -/
theorem writeReg_cases (r : WinReg) (v : Word) (s : State) :
    (r = .cmd ∧ writeReg r v s = command v s) ∨ (r = .err ∧ writeReg r v s = .next (clearErrors v s)) ∨
    (r = .din ∧ writeReg r v s = .next { s with din := v }) ∨
    (r ≠ .cmd ∧ r ≠ .err ∧ r ≠ .din ∧ writeReg r v s = .next s) := by
  cases r <;> simp [writeReg]

/-- Everything HOST's turn can do. -/
theorem hostTurn_cases (s : State) :
    (s.host = [] ∧ hostTurn s = .next s) ∨
    (∃ off rest, s.host = .read off :: rest ∧ hostTurn s = .next (readAccess off { s with host := rest })) ∨
    (∃ off v rest, s.host = .write off v :: rest ∧ hostTurn s = memWrite off v { s with host := rest }) ∨
    (∃ rest, s.host = .waitIdle :: rest ∧ (memRead WinReg.status.offset s)[0] = true ∧
      hostTurn s = .next (readAccess WinReg.status.offset s)) ∨
    (∃ rest, s.host = .waitIdle :: rest ∧ (memRead WinReg.status.offset s)[0] = false ∧
      hostTurn s = .next (readAccess WinReg.status.offset { s with host := rest })) := by
  unfold hostTurn
  split
  · exact .inl ⟨‹_›, rfl⟩
  · exact .inr (.inl ⟨_, _, ‹_›, rfl⟩)
  · exact .inr (.inr (.inl ⟨_, _, _, ‹_›, rfl⟩))
  · split
    · exact .inr (.inr (.inr (.inl ⟨_, ‹_›, ‹_›, rfl⟩)))
    · exact .inr (.inr (.inr (.inr ⟨_, ‹_›, Bool.eq_false_iff.mpr ‹_›, rfl⟩)))

/-- Everything a step can do, by whose turn it is. -/
theorem step_cases (s : State) :
    (nextTurn s = .reset ∧ step s = .next (resetEvent (beginStep s))) ∨
    (nextTurn s = .host ∧ s.wf ∧ step s = hostTurn (beginStep s)) ∨
    (nextTurn s = .seq ∧ s.wf ∧ step s = seqTurn (beginStep s)) ∨
    (nextTurn s ≠ .reset ∧ ¬ s.wf ∧ ∃ f, s.violation = some f ∧ step s = .fault f) := by
  unfold step takeTurn
  cases nextTurn s
  · rcases whenReached_cases hostTurn (beginStep s) with ⟨wf, e⟩ | ⟨wf, f, hf, e⟩
    · exact .inr (.inl ⟨rfl, wf, e⟩)
    · exact .inr (.inr (.inr ⟨by decide, wf, f, hf, e⟩))
  · rcases whenReached_cases seqTurn (beginStep s) with ⟨wf, e⟩ | ⟨wf, f, hf, e⟩
    · exact .inr (.inr (.inl ⟨rfl, wf, e⟩))
    · exact .inr (.inr (.inr ⟨by decide, wf, f, hf, e⟩))
  · exact .inl ⟨rfl, rfl⟩

/-! ### Runs -/

theorem run_zero (s : State) : run 0 s = .next s := rfl

theorem run_succ {n : Nat} {s t : State} (h : step s = .next t) : run (n + 1) s = run n t := by
  have h' : Sys2Proof.core.step s = .next t := h
  simp only [run, Host.Core.run, h']
  rfl

end Sys2Proof.Machine
end

