-- ==== Sys2Proof/Laws/PerInstr.lean ====
section
/-! SUPPORT. The family EncodedCode: what the code of each instruction looks like. -/

namespace Sys2Proof

/-- A legal command word (R83), or a SEQ code that R29 lists. -/
def Code.listed : Code → Bool
  | .cmd v => legal v
  | .seq q => decide (q.toNat ≤ 5 ∨ Machine.Seq.isRound q)

/-- The code of a well-formed instruction is one the spec lists. -/
def Laws.EncodedCode.Statement (i : Instr) : Prop := i.wf = true → (encode i).listed = true

theorem Laws.EncodedCode.nop : Laws.EncodedCode.Statement .nop := fun _ => by decide
theorem Laws.EncodedCode.init : Laws.EncodedCode.Statement .init := fun _ => by decide
theorem Laws.EncodedCode.update (nb : BitVec 3) : Laws.EncodedCode.Statement (.update nb) := by
  revert nb; unfold Laws.EncodedCode.Statement; decide
theorem Laws.EncodedCode.finalize : Laws.EncodedCode.Statement .finalize := fun _ => by decide
theorem Laws.EncodedCode.idle : Laws.EncodedCode.Statement .idle := fun _ => by decide
theorem Laws.EncodedCode.pad1 : Laws.EncodedCode.Statement .pad1 := fun _ => by decide
theorem Laws.EncodedCode.pad2 : Laws.EncodedCode.Statement .pad2 := fun _ => by decide
theorem Laws.EncodedCode.load : Laws.EncodedCode.Statement .load := fun _ => by decide
theorem Laws.EncodedCode.feed : Laws.EncodedCode.Statement .feed := fun _ => by decide
theorem Laws.EncodedCode.ser : Laws.EncodedCode.Statement .ser := fun _ => by decide
theorem Laws.EncodedCode.round (t : BitVec 6) : Laws.EncodedCode.Statement (.round t) := by
  revert t; unfold Laws.EncodedCode.Statement; decide

end Sys2Proof
end

