-- ==== Sys2Proof/Tests/Slice0.lean ====
section
/-! SUPPORT. Tests, each against a value of the spec (the section of 95_test_vectors.md or the rule is named at each),
and a witness for the hypotheses of every statement that has some, at the boundary of each clause. -/

namespace Sys2Proof.Tests

open Sys2Proof Sys2Proof.Machine

/-! ### Well-formedness -/

/-- R83: NB = 5, 6, 7 are no instructions; 0 to 4 are. -/
theorem test_wf_refuses_nb_above_four :
    (Instr.update 5).wf = false ∧ (Instr.update 6).wf = false ∧ (Instr.update 7).wf = false ∧
      (Instr.update 0).wf = true ∧ (Instr.update 4).wf = true := by decide

/-! ### Decoding: words written out from R80 to R83 and R29, and from the bits of spec/opcode_table.json -/

theorem test_decode_commands :
    decodeTableWord 32 0b00000000000000000000000000000000 = some .nop ∧
    decodeTableWord 32 0b00000000000000000000000000000001 = some .init ∧
    decodeTableWord 32 0b00000000000000000000000000000010 = some (.update 0) ∧
    decodeTableWord 32 0b00000000000000000000000100000010 = some (.update 1) ∧
    decodeTableWord 32 0b00000000000000000000001000000010 = some (.update 2) ∧
    decodeTableWord 32 0b00000000000000000000001100000010 = some (.update 3) ∧
    decodeTableWord 32 0b00000000000000000000010000000010 = some (.update 4) ∧
    decodeTableWord 32 0b00000000000000000000000000000011 = some .finalize := by decide

theorem test_decode_seq_codes :
    decodeTableWord 8 0b00000000 = some .idle ∧ decodeTableWord 8 0b00000001 = some .pad1 ∧
    decodeTableWord 8 0b00000010 = some .pad2 ∧ decodeTableWord 8 0b00000011 = some .load ∧
    decodeTableWord 8 0b00000100 = some .feed ∧ decodeTableWord 8 0b00000101 = some .ser ∧
    decodeTableWord 8 0b01000000 = some (.round 0) ∧ decodeTableWord 8 0b01111111 = some (.round 63) := by decide

/-- 95 section 2.8, the illegal words, and R29's unused codes at the ends of their ranges. -/
theorem test_decode_refuses :
    ([0x502, 0x702, 0x4, 0xf, 0x101, 0x103, 0x100, 0x10, 0x80000001, 0x802].map (decodeTableWord 32)).all
      (fun o => o.isNone) = true ∧
    ([0x06, 0x3f, 0x80, 0xff].map (decodeTableWord 8)).all (fun o => o.isNone) = true := by decide

/-! ### The datapath: 95 sections 2.1 to 2.5 -/

theorem test_rotr : rotr 0x12345678 7 = 0xf02468ac ∧ rotr 0x12345678 25 = 0x1a2b3c09 := by decide
theorem test_shr : shr 0xffffffff 3 = 0x1fffffff ∧ shr 0x12345678 10 = 0x00048d15 := by decide
theorem test_bytes : be32 0x00 0x01 0x02 0x03 = 0x00010203 ∧ bytes32 0xba7816bf = [0xba, 0x78, 0x16, 0xbf] ∧
    be64 0x1c0 = [0, 0, 0, 0, 0, 0, 0x01, 0xc0] := by decide
theorem test_sigmas : smallSigma0 0x12345678 = 0xe7fce6ee ∧ smallSigma1 0x12345678 = 0xa1f78649 ∧
    bigSigma0 0x12345678 = 0x66146474 ∧ bigSigma1 0x12345678 = 0x3561abda := by decide
theorem test_ch_maj : ch 0x510e527f 0x9b05688c 0x1f83d9ab = 0x1f85c98c ∧
    maj 0x6a09e667 0xbb67ae85 0x3c6ef372 = 0x3a6fe667 := by decide
theorem test_round_step_all_ones :
    roundStep ⟨0xffffffff, 0xffffffff, 0xffffffff, 0xffffffff, 0xffffffff, 0xffffffff, 0xffffffff, 0xffffffff⟩ 0 0 =
      ⟨0xfffffffb, 0xffffffff, 0xffffffff, 0xffffffff, 0xfffffffc, 0xffffffff, 0xffffffff, 0xffffffff⟩ := by decide

/-- The block of "abc" (R120). -/
def abcBlock : Block := blockAt (paddedBytes [0x61, 0x62, 0x63]) 0

theorem test_expand_abc : (expand abcBlock)[16]? = some 0x61626380 ∧ (expand abcBlock)[17]? = some 0x000f0000 ∧
    (expand abcBlock)[63]? = some 0x12b1edeb := by decide +kernel

/-- V1 and V2, by the reference function. -/
theorem test_sha256 :
    sha256 [] = [0xe3, 0xb0, 0xc4, 0x42, 0x98, 0xfc, 0x1c, 0x14, 0x9a, 0xfb, 0xf4, 0xc8, 0x99, 0x6f, 0xb9, 0x24,
      0x27, 0xae, 0x41, 0xe4, 0x64, 0x9b, 0x93, 0x4c, 0xa4, 0x95, 0x99, 0x1b, 0x78, 0x52, 0xb8, 0x55] ∧
    sha256 [0x61, 0x62, 0x63] = [0xba, 0x78, 0x16, 0xbf, 0x8f, 0x01, 0xcf, 0xea, 0x41, 0x41, 0x40, 0xde, 0x5d, 0xae,
      0x22, 0x23, 0xb0, 0x03, 0x61, 0xa3, 0x96, 0x17, 0x7a, 0x9c, 0xb4, 0x10, 0xff, 0x61, 0xf2, 0x00, 0x15, 0xad] := by
  decide +kernel

/-! ### One step of each instruction -/

/-- A check on the next state; false where there is none. -/
def next (r : Result) (p : State → Bool) : Bool :=
  match r with
  | .next t => p t
  | .fault _ => false
  | .refused _ => false

/-- Reset with these control registers. -/
def at' (phase : BitVec 3) (seq : BitVec 8) (bufCnt : Fin 68) (last : Bool) : State :=
  { State.reset with phase := phase, seq := seq, bufCnt := bufCnt, last := last }

/-- Reset with the message bytes absorbed (fewer than 64). -/
def holding (m : List Byte) : State :=
  { State.reset with
    buf := storeBytes 0 m State.reset.buf, bufCnt := Fin.ofNat 68 m.length, bitLen := BitVec.ofNat 64 (8 * m.length) }

/-- R164: NOP in DONE leaves the digest readable, and is no BUSYCMD while BUSY. -/
theorem test_nop : next (exec .nop (at' Phase.done Seq.idle 0 true)) (fun t => memRead 0x20 t = 0x6a09e667) = true ∧
    next (exec .nop (at' Phase.block Seq.load 64 false)) (fun t => t.err = 0) = true := by decide

/-- R162's example (INIT at ROUND(1)), and 95 section 2.10: INIT keeps DIN. -/
theorem test_init : next (exec .init { at' Phase.final (Seq.round 1) 0 true with din := 0xdeadbeef, err := 0xf })
    (fun t => statusWord t = 0 ∧ t.din = 0xdeadbeef ∧ t.cv = iv) = true := by decide

/-- P4: `update 4` from BUFCNT = 63. -/
theorem test_update_crosses_block :
    next (exec (.update 4) { at' Phase.ready Seq.idle 63 false with bitLen := 0x1f8, din := 0x3f404142 })
      (fun t => statusWord t = 0x00430303 ∧ t.bitLen = 0x218 ∧ t.buf[63] = 0x3f ∧ t.buf[66] = 0x42) = true := by decide

/-- P6: LENOVF. -/
theorem test_update_length_overflow :
    next (exec (.update 1) { State.reset with bitLen := 0xfffffffffffffff8 })
      (fun t => statusWord t = 0x00800008 ∧ t.err = 1 ∧ t.bitLen = 0xfffffffffffffff8) = true ∧
    next (exec (.update 0) { State.reset with bitLen := 0xfffffffffffffff8 })
      (fun t => t = { State.reset with bitLen := 0xfffffffffffffff8 }) = true := by decide

/-- P1: `finalize`; P5: BUSYCMD, INVSTATE. -/
theorem test_finalize : next (exec .finalize State.reset) (fun t => statusWord t = 0x00000105) = true ∧
    next (exec .finalize (at' Phase.final Seq.pad1 1 false)) (fun t => statusWord t = 0x00810105) = true ∧
    next (exec .finalize (at' Phase.done Seq.idle 0 true)) (fun t => t.err = 0x2) = true := by decide

/-- R196: an illegal UPDATE while busy raises only ILLCMD. -/
theorem test_illegal_first : next (command 0x502 (at' Phase.block Seq.load 64 false)) (fun t => t.err = 0x4) = true := by
  decide

/-- R172, R206: with SEQ idle nothing happens. -/
theorem test_idle : next (exec .idle (holding [0x61])) (fun t => t = holding [0x61]) = true := by decide +kernel

/-- R124's example, and 95 section 2.7, L = 63 and 56. -/
theorem test_pad1 :
    next (exec .pad1 { holding [0x61, 0x62, 0x63] with phase := Phase.final, seq := Seq.pad1 })
      (fun t => bufWord t.buf 0 = 0x61626380 ∧ bufWord t.buf 1 = 0 ∧ bufWord t.buf 15 = 0x18 ∧ t.last = true ∧
        statusWord t = 0x00400315) = true := by decide +kernel
theorem test_pad1_long_remainder :
    next (exec .pad1 { holding (List.replicate 56 0x41) with phase := Phase.final, seq := Seq.pad1 })
      (fun t => bufWord t.buf 13 = 0x41414141 ∧ bufWord t.buf 14 = 0x80000000 ∧ bufWord t.buf 15 = 0 ∧
        t.last = false) = true ∧
    next (exec .pad1 { holding (List.replicate 63 0x41) with phase := Phase.final, seq := Seq.pad1 })
      (fun t => bufWord t.buf 15 = 0x41414180 ∧ t.last = false) = true := by decide +kernel

/-- R125's example. -/
theorem test_pad2 : next (exec .pad2 { at' Phase.final Seq.pad2 0 false with bitLen := 0x1c0 })
    (fun t => bufWord t.buf 0 = 0 ∧ bufWord t.buf 14 = 0 ∧ bufWord t.buf 15 = 0x1c0 ∧ t.last = true ∧
      t.bufCnt = 64) = true := by decide +kernel

/-- The state at LOAD for "abc". -/
def abcLoad : State :=
  { at' Phase.final Seq.load 64 true with buf := storeBytes 0 abcBlock.toList State.reset.buf, bitLen := 24 }

/-- R133's example; 95 section 2.11. -/
theorem test_load : next (exec .load abcLoad)
    (fun t => t.win[0] = 0x61626380 ∧ t.win[1] = 0 ∧ t.win[15] = 0x18 ∧ t.work = Work.ofCv iv ∧
      statusWord t = 0x00004015) = true := by decide +kernel

/-- R133: with BUFCNT = 67 three bytes are carried. -/
theorem test_load_carries :
    next (exec .load { at' Phase.block Seq.load 67 false with buf := storeBytes 64 [0x40, 0x41, 0x42] State.reset.buf })
      (fun t => t.buf[0] = 0x40 ∧ t.buf[1] = 0x41 ∧ t.buf[2] = 0x42 ∧ t.buf[3] = 0 ∧ t.bufCnt = 3) = true := by
  decide +kernel

/-- R148's example: ROUND(0) of "abc"; 95 section 2.11. -/
theorem test_round : next (exec (.round 0)
      { at' Phase.final (Seq.round 0) 0 true with work := Work.ofCv iv, win := Vector.ofFn (blockWord abcBlock) })
    (fun t => t.work = ⟨0x5d6aebcd, 0x6a09e667, 0xbb67ae85, 0x3c6ef372, 0xfa2a4622, 0x510e527f, 0x9b05688c,
      0x1f83d9ab⟩ ∧ statusWord t = 0x00004115) = true := by decide +kernel

/-- 95 sections 2.5 and 2.6: ROUND(16) of "abc" writes W[16] over W[0]; ROUND(63) goes to FEED. -/
theorem test_round_writes_window : next (exec (.round 16)
      { at' Phase.final (Seq.round 16) 0 true with
        win := Vector.ofFn (blockWord abcBlock)
        work := ⟨0xb0fa238e, 0xc0645fde, 0xd932eb16, 0x87912990, 0x07590dcd, 0x0b92f20c, 0x745a48de, 0x1e578218⟩ })
    (fun t => t.work.a = 0x21da9a9b ∧ t.work.e = 0x8034229c ∧ t.win[0] = 0x61626380 ∧ t.win[15] = 0x18) = true ∧
    next (exec (.round 63) (at' Phase.final (Seq.round 63) 0 true)) (fun t => statusWord t = 0x00000415) = true := by
  decide +kernel

/-- R170's example: the last FEED of "abc". -/
theorem test_feed : next (exec .feed
      { at' Phase.final Seq.feed 0 true with
        work := ⟨0x506e3058, 0xd39a2165, 0x04d24d6c, 0xb85e2ce9, 0x5ef50f24, 0xfb121210, 0x948d25b6, 0x961f4894⟩ })
    (fun t => t.cv[0] = 0xba7816bf ∧ t.cv[7] = 0xf20015ad ∧ statusWord t = 0x00000515) = true := by decide

/-- R171's example. -/
theorem test_ser : next (exec .ser (at' Phase.final Seq.ser 0 true)) (fun t => statusWord t = 0x00000016) = true := by
  decide

/-! ### The window and the step -/

/-- 95 section 2.10. -/
theorem test_reads : memRead 0x00 State.reset = 0x53323536 ∧ memRead 0x03 State.reset = 0x53323536 ∧
    memRead 0x1c State.reset = 0 ∧ memRead 0x3c State.reset = 0 := by decide
theorem test_err_write : next (memWrite 0x08 0xffffffff { State.reset with err := 0xf }) (fun t => t.err = 0x1) = true ∧
    next (memWrite 0x08 0x4 { State.reset with err := 0xe }) (fun t => t.err = 0xa) = true := by decide

/-- R146, both ends of the first and the last row, as the source itself lists them. -/
theorem test_round_constants : kTable[0] = 0x428a2f98 ∧ kTable[3] = 0xe9b5dba5 ∧ kTable[7] = 0xab1c5ed5 ∧
    kTable[8] = 0xd807aa98 ∧ kTable[60] = 0x90befffa ∧ kTable[63] = 0xc67178f2 := by decide

/-- A table row's word, placed after reset, is what the next step runs; every listed SEQ code does run. -/
theorem test_fetch_command : next (step (State.reset.withFetchWord 32 0x00000302))
    (fun t => statusWord t = 0x00030000 ∧ t.bitLen = 0x18 ∧ t.host = []) = true := by decide
theorem test_fetch_micro_operation : next (step (State.reset.withFetchWord 8 0x01))
    (fun t => t.bufCnt = 64 ∧ t.buf[0] = 0x80 ∧ t.seq = Seq.load) = true := by decide +kernel

theorem test_fetch_every_code :
    (∀ q ∈ ([0x00, 0x01, 0x02, 0x03, 0x04, 0x05, 0x40, 0x7f] : List Nat),
      next (step (State.reset.withFetchWord 8 q)) (fun _ => true) = true) ∧
    next (step (State.reset.withFetchWord 8 0x06)) (fun _ => true) = false := by decide

/-- R199: ROUND(0) in READY, which R42 excludes, stops HOST too, as P6's start state does (log entry 22); the reset event
does not stop. P6's `update 1` at the BUFCNT that R42 has for that BITLEN does run: LENOVF, FAILED. -/
theorem test_outside_table :
    next (step { State.reset with bitLen := 0xfffffffffffffff8, host := [.write 0x0c 0x102] }) (fun _ => true) = false ∧
    next (step { at' Phase.ready Seq.idle 63 false with bitLen := 0xfffffffffffffff8, host := [.write 0x0c 0x102] })
      (fun t => t.err = 0x1 ∧ t.phase = Phase.failed ∧ t.bitLen = 0xfffffffffffffff8 ∧ t.bufCnt = 63) = true ∧
    next (step { at' Phase.ready (Seq.round 0) 0 false with turns := [.host] }) (fun _ => true) = false ∧
    next (step { at' Phase.ready (Seq.round 0) 0 false with turns := [.reset] }) (fun t => t.seq = Seq.idle) = true := by
  decide

/-! ### Witnesses: the hypotheses of each statement, met by a concrete state, each clause at a boundary -/

theorem witness_UpdateAbsorbsDinBytesInOrder :
    (let s := at' Phase.ready Seq.idle 63 false
     s.phase = Phase.ready ∧ (4 : BitVec 3).toNat ≤ 4 ∧ s.bufCnt.val + (4 : BitVec 3).toNat ≤ 67 ∧
      s.bitLen.toNat + 8 * (4 : BitVec 3).toNat < 2 ^ 64 ∧ 64 ≤ s.bufCnt.val + (4 : BitVec 3).toNat) ∧
    (let s := { at' Phase.ready Seq.idle 60 false with bitLen := 0xffffffffffffffe0 }
     s.phase = Phase.ready ∧ (3 : BitVec 3).toNat ≤ 4 ∧ s.bufCnt.val + (3 : BitVec 3).toNat ≤ 67 ∧
      s.bitLen.toNat + 8 * (3 : BitVec 3).toNat < 2 ^ 64 ∧ s.bufCnt.val + (3 : BitVec 3).toNat < 64) := by decide

theorem witness_UpdatePastTheLengthBoundFails :
    (let s := { State.reset with bitLen := 0xfffffffffffffff8 }
     s.phase = Phase.ready ∧ (1 : BitVec 3).toNat ≤ 4 ∧ 2 ^ 64 ≤ s.bitLen.toNat + 8 * (1 : BitVec 3).toNat) ∧
    ((at' Phase.ready Seq.idle 63 false).phase = Phase.ready ∧ (at' Phase.ready Seq.idle 63 false).bufCnt.val ≤ 63) := by
  decide

theorem witness_CommandsWhileBusyAreDropped :
    (at' Phase.block Seq.load 67 false).phase = Phase.block ∧ (at' Phase.final Seq.pad1 0 false).phase = Phase.final ∧
    (4 : BitVec 3).toNat ≤ 4 := by decide

theorem witness_CommandsAfterTheEndAreInvalid :
    (at' Phase.done Seq.idle 0 true).phase = Phase.done ∧ (at' Phase.failed Seq.idle 0 false).phase = Phase.failed ∧
    (0 : BitVec 3).toNat ≤ 4 := by decide

theorem witness_FinalizeStartsPadding : State.reset.phase = Phase.ready := by decide

theorem witness_CommandDispatchChecksInOrder :
    legal 0x00000502 = false ∧ (legal 0x0 = true ∧ opField 0x0 = 0) ∧ (legal 0x1 = true ∧ opField 0x1 = 1) ∧
    (legal 0x402 = true ∧ opField 0x402 = 2 ∧ (at' Phase.block Seq.load 64 false).phase = Phase.block) ∧
    (legal 0x3 = true ∧ opField 0x3 = 3 ∧ (at' Phase.failed Seq.idle 0 false).phase = Phase.failed) ∧
    (legal 0x2 = true ∧ opField 0x2 = 2 ∧ State.reset.phase = Phase.ready) ∧
    (legal 0x3 = true ∧ opField 0x3 = 3 ∧ State.reset.phase = Phase.ready) := by decide

theorem witness_ErrorsArePreciseAndSingle :
    legal 0x00000502 = false ∧
    (legal 0x402 = true ∧ opField 0x402 = 2 ∧
      ({ at' Phase.block Seq.load 64 false with err := 0x8 } : State).phase = Phase.block) ∧
    (legal 0x3 = true ∧ opField 0x3 = 3 ∧
      ({ at' Phase.failed Seq.idle 0 false with err := 0x3 } : State).phase = Phase.failed) ∧
    (State.reset.phase = Phase.ready ∧ legal 0x102 = true ∧ opField 0x102 = 2 ∧
      2 ^ 64 ≤ (0xfffffffffffffff8 : BitVec 64).toNat + 8 * (nbField 0x102).toNat) ∧
    (legal 0x0 = true ∧ opField 0x0 = 0 ∧ next (command 0x0 State.reset) (fun _ => true) = true) ∧
    (State.reset.bitLen.toNat + 8 * (nbField 0x402).toNat < 2 ^ 64 ∧
      next (command 0x402 State.reset) (fun _ => true) = true ∧
      next (command 0x3 State.reset) (fun _ => true) = true) := by decide

theorem witness_PadOneBuildsTheBlock :
    (at' Phase.final Seq.pad1 55 false).bufCnt.val ≤ 55 ∧ (at' Phase.final Seq.pad1 63 false).bufCnt.val ≤ 63 ∧
    63 < (at' Phase.final Seq.pad1 64 false).bufCnt.val := by decide

theorem witness_LoadTakesTheBlock :
    64 ≤ (at' Phase.block Seq.load 64 false).bufCnt.val ∧ 64 ≤ (at' Phase.block Seq.load 67 false).bufCnt.val ∧
    (at' Phase.block Seq.load 63 false).bufCnt.val < 64 := by decide

/-- The three definitions of `w`, `x` and `y` are equations that any t and s meet. -/
theorem witness_RoundStepsTheWorkingRegisters (t : BitVec 6) (s : State) :
    ∃ w x y : Word,
      w = (if t.toNat < 16 then winAt s.win t.toNat
        else smallSigma1 (winAt s.win (t.toNat - 2)) + winAt s.win (t.toNat - 7) +
          smallSigma0 (winAt s.win (t.toNat - 15)) + winAt s.win (t.toNat - 16)) ∧
      x = s.work.h + bigSigma1 s.work.e + ch s.work.e s.work.f s.work.g + kTable[t.toNat]'t.isLt + w ∧
      y = bigSigma0 s.work.a + maj s.work.a s.work.b s.work.c := ⟨_, _, _, rfl, rfl, rfl⟩

theorem witness_FeedAddsTheWorkingRegisters :
    (at' Phase.block Seq.feed 3 false).phase = Phase.block ∧
    ((at' Phase.final Seq.feed 0 true).phase = Phase.final ∧ (at' Phase.final Seq.feed 0 true).last = true) ∧
    ((at' Phase.final Seq.feed 0 false).phase = Phase.final ∧ (at' Phase.final Seq.feed 0 false).last = false) ∧
    (State.reset.phase ≠ Phase.block ∧ State.reset.phase ≠ Phase.final) := by decide

theorem witness_SerEntersDone :
    (at' Phase.final Seq.ser 0 true).phase = Phase.final ∧ State.reset.phase ≠ Phase.final := by decide

theorem witness_ExcludedRegisterValuesFault :
    5 ≤ (at' 5 Seq.idle 0 false).phase.toNat ∧ 5 ≤ (at' 7 Seq.idle 0 false).phase.toNat ∧
    nextTurn (at' 7 Seq.idle 0 false) ≠ .reset ∧
    (let s := at' Phase.ready Seq.idle 64 false
     s.phase = Phase.ready ∧ (4 : BitVec 3).toNat ≤ 4 ∧ s.bitLen.toNat + 8 * (4 : BitVec 3).toNat < 2 ^ 64 ∧
      67 < s.bufCnt.val + (4 : BitVec 3).toNat) ∧
    (nextTurn (at' Phase.ready (Seq.round 0) 0 false) ≠ .reset ∧ ¬ (at' Phase.ready (Seq.round 0) 0 false).wf) ∧
    (∀ q ∈ ([0x06, 0x3f, 0x80, 0xff] : List (BitVec 8)), (at' Phase.failed q 0 false).phase.toNat ≤ 4 ∧
      nextTurn (at' Phase.failed q 0 false) ≠ .reset ∧ ((0x06 ≤ q.toNat ∧ q.toNat ≤ 0x3f) ∨ 0x80 ≤ q.toNat)) :=
  ⟨by decide, by decide, by decide, by decide, ⟨by decide, by decide⟩, by decide⟩

/-- One state a register: the first and the last offset of each. -/
theorem witness_HostReadReturnsTheRegister :
    ∀ k ∈ List.range 16, ∀ b ∈ [0, 3],
      let s := { State.reset with host := [.read (BitVec.ofNat 6 (4 * k + b))] }
      s.wf ∧ nextTurn s = .host ∧ s.host = .read (BitVec.ofNat 6 (4 * k + b)) :: [] ∧
        (BitVec.ofNat 6 (4 * k + b)).toNat / 4 = k := by decide +kernel

theorem witness_HostWriteActsByRegister :
    ∀ k ∈ List.range 16, ∀ b ∈ [0, 3],
      let s := { State.reset with host := [.write (BitVec.ofNat 6 (4 * k + b)) 0xffffffff] }
      s.wf ∧ nextTurn s = .host ∧ s.host = .write (BitVec.ofNat 6 (4 * k + b)) 0xffffffff :: [] ∧
        (BitVec.ofNat 6 (4 * k + b)).toNat / 4 = k := by decide +kernel

theorem witness_DigestRegistersHoldTheDigest :
    7 < 8 ∧ (at' Phase.done Seq.idle 0 true).phase = Phase.done ∧
    (at' Phase.final Seq.ser 0 true).phase ≠ Phase.done := by decide

theorem witness_HiddenRegistersCannotBeRead : (at' Phase.final Seq.ser 0 true).phase ≠ Phase.done := by decide

theorem witness_OnlyTheWindowReachesTheCore :
    (Config.coreBase + 64 < Config.coreBase ∨ Config.coreBase + 64 ≤ Config.coreBase + 64) := .inr le_rfl

theorem witness_PinsPerformOneAccessUnlessReset :
    State.reset.wf ∧
    (⟨true, true, true, 3, 1⟩ : Pins).rst = true ∧
    ((⟨false, true, false, 15, 0⟩ : Pins).rst = false ∧ (⟨false, true, false, 15, 0⟩ : Pins).sel = true ∧
      (⟨false, true, false, 15, 0⟩ : Pins).we = false) ∧
    ((⟨false, true, true, 3, 1⟩ : Pins).rst = false ∧ (⟨false, true, true, 3, 1⟩ : Pins).sel = true ∧
      (⟨false, true, true, 3, 1⟩ : Pins).we = true) := by decide

/-- BUSY, with HOST's turn given; and not BUSY. -/
theorem witness_PollGoesOnOnlyWhenNotBusy :
    (let s := { at' Phase.final Seq.pad1 0 false with host := [.waitIdle], turns := [.host] }
     s.wf ∧ nextTurn s = .host ∧ s.host = .waitIdle :: [] ∧ s.phase = Phase.final) ∧
    (let s := { at' Phase.done Seq.idle 0 true with host := [.waitIdle] }
     s.wf ∧ nextTurn s = .host ∧ s.host = .waitIdle :: [] ∧ s.phase ≠ Phase.block ∧ s.phase ≠ Phase.final) :=
  ⟨⟨by decide, by decide⟩, by decide, by decide⟩

theorem witness_CodesAndInstructionsCorrespond :
    (Instr.update 4).wf = true ∧ decode (.cmd 0x402) = .ok (.update 4) ∧ decode (.seq 0x7f) = .ok (.round 63) :=
  ⟨rfl, rfl, rfl⟩

theorem witness_SeqCodesDecodeAsListed :
    (0x7f : BitVec 8).toNat = 0x40 + (63 : BitVec 6).toNat ∧ (0x40 : BitVec 8).toNat = 0x40 + (0 : BitVec 6).toNat ∧
    (∀ q ∈ ([0x06, 0x3f, 0x80, 0xff] : List (BitVec 8)), (0x06 ≤ q.toNat ∧ q.toNat ≤ 0x3F) ∨ 0x80 ≤ q.toNat) := by decide

/-- HOST about to write `v` to CMD. -/
def writing (v : Word) : State := { State.reset with host := [.write 0x0c v] }

theorem witness_StepRunsTheCommandWritten :
    ((writing 0x402).wf ∧ nextTurn (writing 0x402) = .host ∧ (writing 0x402).host = .write 0x0c 0x402 :: [] ∧
      WinReg.ofOffset 0x0c = .cmd ∧ decode (.cmd 0x402) = .ok (.update 4)) ∧
    ((writing 0x502).wf ∧ nextTurn (writing 0x502) = .host ∧ (writing 0x502).host = .write 0x0c 0x502 :: [] ∧
      decode (.cmd 0x502) = .error .nbTooLarge) :=
  ⟨⟨by decide, rfl, rfl, rfl, rfl⟩, by decide, rfl, rfl, rfl⟩

theorem witness_StepRunsTheMicroOperation :
    (at' Phase.final (Seq.round 63) 0 true).wf ∧ nextTurn (at' Phase.final (Seq.round 63) 0 true) = .seq ∧
    decode (.seq (at' Phase.final (Seq.round 63) 0 true).seq) = .ok (.round 63) := ⟨by decide, rfl, rfl⟩

theorem witness_ResetEventGivesTheResetValues :
    nextTurn { at' Phase.final (Seq.round 63) 0 true with turns := [.reset] } = .reset := rfl

/-- In FINAL at PAD1: in the table, and SEQ's step goes on. -/
theorem witness_EveryStepKeepsTheStateTable :
    (at' Phase.final Seq.pad1 0 false).Inv ∧
    next (step (at' Phase.final Seq.pad1 0 false)) (fun _ => true) = true := by decide

theorem witness_ReachableStatesAreInTheTable :
    ∃ t, run 1 { State.reset with work := State.reset.work, win := State.reset.win, buf := State.reset.buf,
                                  host := [Asm.finalize], turns := [] } = .next t ∧ t.phase = Phase.final :=
  ⟨_, rfl, rfl⟩

/-- One state for each line of R42's table, at the ends of its ranges. -/
theorem witness_NoFaultFromTheStateTable : ∀ s ∈
    [{ at' Phase.ready Seq.idle 63 false with bitLen := 504 }, { at' Phase.block Seq.load 67 false with bitLen := 536 },
      { at' Phase.block (Seq.round 63) 3 false with bitLen := 536 },
      { at' Phase.final Seq.pad1 63 false with bitLen := 504 }, at' Phase.final Seq.load 64 true,
      at' Phase.final Seq.feed 0 false, at' Phase.final Seq.pad2 0 false, at' Phase.final Seq.ser 0 true,
      at' Phase.done Seq.idle 0 true, { at' Phase.failed Seq.idle 63 false with bitLen := 504 }], s.wf := by decide

/-- Two states that differ in a..h and in BUF[66], and a step from the first. -/
theorem witness_UnspecifiedContentsNeverMatter :
    (writing 1).AgreesWith { writing 1 with work := ⟨1, 1, 1, 1, 1, 1, 1, 1⟩, buf := State.reset.buf.set 66 1 } ∧
    ∃ t, step (writing 1) = .next t :=
  ⟨⟨rfl, by decide, by decide, fun i _ h => absurd h (by simp [writing, State.reset])⟩, _, rfl⟩

theorem witness_OnlyInitResetAndFeedWriteTheChainingValue :
    ∃ t, step (at' Phase.block Seq.feed 0 false) = .next t := ⟨_, rfl⟩

theorem witness_OnlyHostChangesLengthAndDataIn : ∃ t, step (writing 0x402) = .next t ∧ t.bitLen = 32 := ⟨_, rfl, rfl⟩

theorem not_issues_of_idle_host {s : State} {v : Word} (h : s.host = []) : ¬ s.issues v := by
  rintro ⟨-, off, rest, e, -⟩
  rw [h] at e
  cases e

theorem not_writes_of_idle_host {s : State} {r : WinReg} (h : s.host = []) : ¬ s.writes r := by
  rintro ⟨-, off, v, rest, e, -⟩
  rw [h] at e
  cases e

theorem witness_FailedIsLeftOnlyByInitOrReset :
    let s := { at' Phase.failed Seq.idle 0 false with err := 1 }
    (∃ t, step s = .next t) ∧ nextTurn s ≠ .reset ∧ ¬ s.issues 1 ∧ s.phase = Phase.failed ∧
      s.err.getLsbD 0 = true :=
  ⟨⟨_, rfl⟩, by decide, not_issues_of_idle_host rfl, rfl, by decide⟩

theorem witness_ErrorBitsAreSticky :
    let s := { State.reset with err := 0x8 }
    (∃ t, step s = .next t) ∧ nextTurn s ≠ .reset ∧ ¬ s.issues 1 ∧ ¬ s.writes .err ∧ s.err.getLsbD 3 = true :=
  ⟨⟨_, rfl⟩, by decide, not_issues_of_idle_host rfl, not_writes_of_idle_host rfl, by decide⟩

/-- One state for each line of the table; the commands that move SEQ and one that does not; reset. -/
theorem witness_SequencerFollowsTheSuccessorTable :
    (∀ s ∈ [State.reset, at' Phase.final Seq.pad1 0 false, at' Phase.final Seq.pad2 0 false,
        at' Phase.block Seq.load 64 false, at' Phase.block (Seq.round 0) 0 false, at' Phase.block (Seq.round 63) 0 false,
        at' Phase.block Seq.feed 0 false, at' Phase.final Seq.feed 0 true, at' Phase.final Seq.ser 0 true],
      next (step { s with turns := [.seq] }) (fun _ => true) = true) ∧
    next (step (writing 0x0)) (fun _ => true) = true ∧ next (step (writing 0x1)) (fun _ => true) = true ∧
    next (step (writing 0x402)) (fun _ => true) = true ∧ next (step (writing 0x3)) (fun _ => true) = true ∧
    next (step { State.reset with turns := [.reset] }) (fun _ => true) = true := by decide

theorem witness_DigestStaysUntilInitOrReset :
    let s := at' Phase.done Seq.idle 0 true
    (∃ t, step s = .next t) ∧ nextTurn s ≠ .reset ∧ ¬ s.issues 1 ∧ s.phase = Phase.done :=
  ⟨⟨_, rfl⟩, by decide, not_issues_of_idle_host rfl, rfl⟩

/-- The longest computation: PAD1 with a remainder of 56. -/
theorem witness_SequencerFinishes :
    { at' Phase.final Seq.pad1 56 false with bitLen := 448 }.Inv ∧
    { at' Phase.final Seq.pad1 56 false with bitLen := 448 }.turns = [] := by decide

/-- The first and the last round of the "abc" block, its schedule laid out by R135 (at ROUND(63), slot 15 of WIN still
holds W[47]). -/
def abcRound0 : State :=
  { at' Phase.final (Seq.round 0) 0 true with work := Work.ofCv iv, win := Vector.ofFn (blockWord abcBlock) }
def abcRound63 : State :=
  { at' Phase.final (Seq.round 63) 0 true with
    work := rounds (expand abcBlock) 63 (Work.ofCv iv)
    win := Vector.ofFn fun j => (expand abcBlock).getD (if j = 15 then 47 else 48 + j.val) 0 }

theorem abcRound0_inRounds : abcRound0.InRounds abcBlock 0 :=
  ⟨.inr rfl, rfl, by decide +kernel, by decide +kernel⟩

theorem witness_WindowScheduleIsTheExpansion :
    (Phase.isBusy abcLoad.phase ∧ abcLoad.seq = Seq.load ∧ nextTurn abcLoad = .seq ∧
      next (step abcLoad) (fun _ => true) = true) ∧
    (abcRound0.InRounds abcBlock 0 ∧ nextTurn abcRound0 = .seq ∧ next (step abcRound0) (fun _ => true) = true) ∧
    (abcRound63.InRounds abcBlock 63 ∧ nextTurn abcRound63 = .seq ∧ next (step abcRound63) (fun _ => true) = true) ∧
    ({ abcRound0 with turns := [.host] }.InRounds abcBlock 0 ∧ nextTurn { abcRound0 with turns := [.host] } = .host ∧
      next (step { abcRound0 with turns := [.host] }) (fun _ => true) = true) := by
  refine ⟨by decide +kernel, ⟨abcRound0_inRounds, by decide +kernel⟩,
    ⟨⟨by decide +kernel, by decide +kernel, by decide +kernel, by decide +kernel⟩, by decide +kernel⟩, ?_⟩
  exact ⟨abcRound0_inRounds, by decide +kernel⟩

theorem witness_BlockStepsComputeCompress :
    (∀ s ∈ [{ at' Phase.block Seq.load 64 false with bitLen := 512 }, { at' Phase.block Seq.load 67 false with bitLen := 536 },
        at' Phase.final Seq.load 64 false, at' Phase.final Seq.load 64 true],
      s.Inv ∧ s.turns = [] ∧ s.seq = Seq.load) := by decide

/-- 63 bytes absorbed. -/
theorem holding_63 : (holding (List.replicate 63 0x41)).Holding (List.replicate 63 0x41) := by
  refine ⟨by decide, by decide, by decide, by decide +kernel, by decide +kernel, rfl, by decide +kernel⟩

theorem witness_UpdateAppendsToTheMessage :
    ((holding []).Holding [] ∧ (holding []).turns = [] ∧ (4 : BitVec 3).toNat ≤ 4 ∧
      8 * (([] : List Byte).length + (4 : BitVec 3).toNat) < 2 ^ 64 ∧
      (holding []).bufCnt.val + (4 : BitVec 3).toNat < 64) ∧
    ((holding (List.replicate 63 0x41)).Holding (List.replicate 63 0x41) ∧
      64 ≤ (holding (List.replicate 63 0x41)).bufCnt.val + (1 : BitVec 3).toNat) := by
  refine ⟨⟨⟨by decide, by decide, by decide, by decide, by decide, rfl, by decide +kernel⟩, by decide⟩, holding_63,
    by decide⟩

/-- Both lengths of the computation: no bytes absorbed, and 63. -/
theorem witness_FinalizeComputesTheDigest :
    ((holding []).Holding [] ∧ (holding []).turns = [] ∧ ([] : List Byte).length % 64 ≤ 55) ∧
    ((holding (List.replicate 63 0x41)).Holding (List.replicate 63 0x41) ∧
      (holding (List.replicate 63 0x41)).turns = [] ∧ ¬ (List.replicate 63 (0x41 : Byte)).length % 64 ≤ 55) := by
  refine ⟨⟨witness_UpdateAppendsToTheMessage.1.1, rfl, by decide⟩, holding_63, rfl, by decide⟩

/-- From the middle of another computation, with a list of turns. -/
theorem witness_OneshotComputesTheDigestUnderEverySchedule :
    let s := { at' Phase.final (Seq.round 63) 0 true with turns := [.seq, .host, .host] }
    s.Inv ∧ s.noReset ∧ 8 * ([0x61] : List Byte).length < 2 ^ 64 :=
  ⟨by decide, by unfold State.noReset; decide, by decide⟩

theorem witness_HasherOneshotIsTheReferenceFunction :
    8 * ([] : List Byte).length < 2 ^ 64 ∧ 2 ^ 64 ≤ 8 * (List.replicate (2 ^ 61) (0x41 : Byte)).length := by
  constructor
  · decide
  · rw [List.length_replicate]; norm_num

theorem witness_RotationAndShiftByBits : (1 ≤ 1 ∧ 1 ≤ 31) ∧ (1 ≤ 31 ∧ 31 ≤ 31) ∧ 0 < 32 ∧ 31 < 32 := by decide

theorem witness_ChooseAndMajorityByBits : 31 < 32 := by decide

theorem witness_BigEndianBytes : 7 < 8 := by decide

end Sys2Proof.Tests
end

/-! SUPPORT. The family of 10_state.md: STATUS and the Digest as HOST reads them, what a step of each agent does to the
registers of R42's table, the table as an invariant of every run, and the successors of SEQ. -/

namespace Sys2Proof.Machine

/-! ### The decoder, inverted -/

theorem isRound_round (n : BitVec 6) : Seq.isRound (Seq.round n) := by
  revert n; decide

theorem round_toNat (n : BitVec 6) : (Seq.round n).toNat = 0x40 + n.toNat := by
  revert n; decide

/-- The SEQ codes that decode, and to what (R87). -/
theorem decode_seq_ok {q : BitVec 8} {i : Instr} (h : decode (.seq q) = .ok i) :
    (q = Seq.idle ∧ i = .idle) ∨ (q = Seq.pad1 ∧ i = .pad1) ∨ (q = Seq.pad2 ∧ i = .pad2) ∨
    (q = Seq.load ∧ i = .load) ∨ (q = Seq.feed ∧ i = .feed) ∨ (q = Seq.ser ∧ i = .ser) ∨
    ∃ n, q = Seq.round n ∧ i = .round n := by
  have code : ∀ p : BitVec 8, p.extractLsb' 6 2 = 0b01 → p = Seq.round (p.extractLsb' 0 6) := by decide
  simp only [decode, decodeSeq] at h
  split_ifs at h with idle pad1 pad2 load feed ser round <;> cases h
  · exact .inl ⟨idle, rfl⟩
  · exact .inr (.inl ⟨pad1, rfl⟩)
  · exact .inr (.inr (.inl ⟨pad2, rfl⟩))
  · exact .inr (.inr (.inr (.inl ⟨load, rfl⟩)))
  · exact .inr (.inr (.inr (.inr (.inl ⟨feed, rfl⟩))))
  · exact .inr (.inr (.inr (.inr (.inr (.inl ⟨ser, rfl⟩)))))
  · exact .inr (.inr (.inr (.inr (.inr (.inr ⟨_, code q round, rfl⟩)))))

theorem reservedMask_getLsbD : ∀ i < 32, reservedMask.getLsbD i = decide ((4 ≤ i ∧ i < 8) ∨ 11 ≤ i) := by decide

/-- A word with no reserved bit set is its OP and NB fields (R80). -/
theorem word_eq_fields {v : Word} (h : v &&& reservedMask = 0) :
    v = (opField v).setWidth 32 ||| (nbField v).setWidth 32 <<< 8 := by
  apply BitVec.eq_of_getLsbD_eq
  intro i hi
  have clear : v.getLsbD i = true → ¬ (4 ≤ i ∧ i < 8) ∧ i < 11 := by
    simpa [reservedMask_getLsbD i hi] using congrArg (BitVec.getLsbD · i) h
  simp only [opField, nbField, BitVec.getLsbD_or, BitVec.getLsbD_shiftLeft, BitVec.getLsbD_setWidth,
    BitVec.getLsbD_extractLsb']
  grind

/-- The command words that decode, and to what (R83). -/
theorem decode_cmd_ok {v : Word} {i : Instr} (h : decode (.cmd v) = .ok i) :
    (v = 0 ∧ i = .nop) ∨ (v = 1 ∧ i = .init) ∨
    (∃ nb : BitVec 3, nb.toNat ≤ 4 ∧ v = 0x2 ||| nb.setWidth 32 <<< 8 ∧ i = .update nb) ∨
    (v = 3 ∧ i = .finalize) := by
  simp only [decode, decodeCmd, withoutNb] at h
  split_ifs at h with mask op nb op nb op nb op nb <;> cases h
  all_goals have word := word_eq_fields (not_not.mp mask); rw [op] at word
  · rw [nb] at word; exact .inl ⟨word, rfl⟩
  · rw [nb] at word; exact .inr (.inl ⟨word, rfl⟩)
  · exact .inr (.inr (.inl ⟨_, nb, word, rfl⟩))
  · rw [nb] at word; exact .inr (.inr (.inr ⟨word, rfl⟩))

/-! ### The registers of R42's table -/

/-- The registers that R42's table and SEQ's successors speak of. -/
structure Control where
  phase : BitVec 3
  seq : BitVec 8
  bufCnt : Fin 68
  bitLen : BitVec 64
  last : Bool

/-- The table's registers of a state: what else the state holds does not enter R42. -/
def State.control (s : State) : Control := ⟨s.phase, s.seq, s.bufCnt, s.bitLen, s.last⟩

/-- R42: `(BITLEN/8) mod 64`. -/
def Control.lengthMod (c : Control) : Nat := c.bitLen.toNat / 8 % 64

/-- R42's table, one constructor per row; at LOAD in BLOCK with the agreement that makes the table inductive. -/
inductive Control.Row (c : Control) : Prop
  | ready (phase : c.phase = Phase.ready) (seq : c.seq = Seq.idle) (cnt : c.bufCnt.val ≤ 63)
      (len : c.bufCnt.val = c.lengthMod) (last : c.last = false)
  | blockLoad (phase : c.phase = Phase.block) (seq : c.seq = Seq.load) (ge : 64 ≤ c.bufCnt.val)
      (cnt : c.bufCnt.val ≤ 67) (len : c.bufCnt.val % 64 = c.lengthMod) (last : c.last = false)
  | blockRounds (phase : c.phase = Phase.block) (seq : Seq.isRound c.seq ∨ c.seq = Seq.feed)
      (cnt : c.bufCnt.val ≤ 3) (len : c.bufCnt.val = c.lengthMod) (last : c.last = false)
  | pad1 (phase : c.phase = Phase.final) (seq : c.seq = Seq.pad1) (cnt : c.bufCnt.val ≤ 63)
      (len : c.bufCnt.val = c.lengthMod) (last : c.last = false)
  | finalLoad (phase : c.phase = Phase.final) (seq : c.seq = Seq.load) (cnt : c.bufCnt.val = 64)
  | finalRounds (phase : c.phase = Phase.final) (seq : Seq.isRound c.seq ∨ c.seq = Seq.feed)
      (cnt : c.bufCnt.val = 0)
  | pad2 (phase : c.phase = Phase.final) (seq : c.seq = Seq.pad2) (cnt : c.bufCnt.val = 0) (last : c.last = false)
  | ser (phase : c.phase = Phase.final) (seq : c.seq = Seq.ser) (cnt : c.bufCnt.val = 0) (last : c.last = true)
  | done (phase : c.phase = Phase.done) (seq : c.seq = Seq.idle) (cnt : c.bufCnt.val = 0) (last : c.last = true)
  | failed (phase : c.phase = Phase.failed) (seq : c.seq = Seq.idle) (cnt : c.bufCnt.val ≤ 63)
      (len : c.bufCnt.val = c.lengthMod) (last : c.last = false)

/-- R42 with its agreement, on the table's registers. -/
def Control.Inv (c : Control) : Prop := c.bitLen.toNat % 8 = 0 ∧ c.Row

theorem control_row_of_inTable {s : State} (row : s.inTable)
    (agree : s.phase = Phase.block → s.seq = Seq.load → s.bufCnt.val % 64 = s.lengthMod) : s.control.Row := by
  obtain ⟨p, q, c, m, l⟩ | ⟨p, q, g, c, l⟩ | ⟨p, q, c, m, l⟩ | ⟨p, q, c, m, l⟩ | ⟨p, q, c⟩ | ⟨p, q, c⟩ | ⟨p, q, c, l⟩ |
    ⟨p, q, c, l⟩ | ⟨p, q, c, l⟩ | ⟨p, q, c, m, l⟩ := row
  · exact .ready p q c m l
  · exact .blockLoad p q g c (agree p q) l
  · exact .blockRounds p q c m l
  · exact .pad1 p q c m l
  · exact .finalLoad p q c
  · exact .finalRounds p q c
  · exact .pad2 p q c l
  · exact .ser p q c l
  · exact .done p q c l
  · exact .failed p q c m l

theorem inTable_of_control_row {s : State} (row : s.control.Row) : s.inTable := by
  cases row with
  | ready p q c m l => exact .inl ⟨p, q, c, m, l⟩
  | blockLoad p q g c _ l => exact .inr (.inl ⟨p, q, g, c, l⟩)
  | blockRounds p q c m l => exact .inr (.inr (.inl ⟨p, q, c, m, l⟩))
  | pad1 p q c m l => exact .inr (.inr (.inr (.inl ⟨p, q, c, m, l⟩)))
  | finalLoad p q c => exact .inr (.inr (.inr (.inr (.inl ⟨p, q, c⟩))))
  | finalRounds p q c => exact .inr (.inr (.inr (.inr (.inr (.inl ⟨p, q, c⟩)))))
  | pad2 p q c l => exact .inr (.inr (.inr (.inr (.inr (.inr (.inl ⟨p, q, c, l⟩))))))
  | ser p q c l => exact .inr (.inr (.inr (.inr (.inr (.inr (.inr (.inl ⟨p, q, c, l⟩)))))))
  | done p q c l => exact .inr (.inr (.inr (.inr (.inr (.inr (.inr (.inr (.inl ⟨p, q, c, l⟩))))))))
  | failed p q c m l => exact .inr (.inr (.inr (.inr (.inr (.inr (.inr (.inr (.inr ⟨p, q, c, m, l⟩))))))))

theorem Control.Row.of_load {c : Control} (row : c.Row) (seq : c.seq = Seq.load) :
    (c.phase = Phase.block ∧ 64 ≤ c.bufCnt.val ∧ c.bufCnt.val % 64 = c.lengthMod ∧ c.last = false) ∨
    (c.phase = Phase.final ∧ c.bufCnt.val = 64) := by
  cases row with
  | blockLoad p _ g _ m l => exact .inl ⟨p, g, m, l⟩
  | finalLoad p _ cnt => exact .inr ⟨p, cnt⟩
  | _ => simp_all [Seq.isRound]

/-- The states of `State.Inv`, on the table's registers. -/
theorem inv_iff_control_inv (s : State) : s.Inv ↔ s.control.Inv := by
  constructor
  · rintro ⟨⟨mul, row⟩, agree⟩
    exact ⟨mul, control_row_of_inTable row agree⟩
  · rintro ⟨mul, row⟩
    refine ⟨⟨mul, inTable_of_control_row row⟩, fun p q => ?_⟩
    obtain ⟨-, -, len, -⟩ | ⟨p', -⟩ := row.of_load q
    · exact len
    · exact absurd (p.symm.trans p') (by decide)

theorem Control.Row.of_ready {c : Control} (row : c.Row) (phase : c.phase = Phase.ready) :
    c.seq = Seq.idle ∧ c.bufCnt.val ≤ 63 ∧ c.bufCnt.val = c.lengthMod ∧ c.last = false := by
  cases row with
  | ready _ q cnt m l => exact ⟨q, cnt, m, l⟩
  | _ => simp_all

theorem Control.Row.of_rounds {c : Control} (row : c.Row) (seq : Seq.isRound c.seq ∨ c.seq = Seq.feed) :
    (c.phase = Phase.block ∧ c.bufCnt.val ≤ 3 ∧ c.bufCnt.val = c.lengthMod ∧ c.last = false) ∨
    (c.phase = Phase.final ∧ c.bufCnt.val = 0) := by
  cases row with
  | blockRounds p _ cnt m l => exact .inl ⟨p, cnt, m, l⟩
  | finalRounds p _ cnt => exact .inr ⟨p, cnt⟩
  | _ => simp_all [Seq.isRound]

theorem Control.Row.phase_of_pad {c : Control} (row : c.Row) (seq : c.seq = Seq.pad1 ∨ c.seq = Seq.pad2) :
    c.phase = Phase.final := by
  cases row with
  | pad1 p => exact p
  | pad2 p => exact p
  | _ => obtain seq | seq := seq <;> simp_all [Seq.isRound]

theorem Control.Row.of_ser {c : Control} (row : c.Row) (seq : c.seq = Seq.ser) :
    c.bufCnt.val = 0 ∧ c.last = true := by
  cases row with
  | ser _ _ cnt l => exact ⟨cnt, l⟩
  | _ => simp_all [Seq.isRound]

/-! ### What each agent does to these registers -/

/-- What SEQ's step does to the registers of R42's table (R172's successors). -/
inductive SeqMove (c d : Control) : Prop
  | idle (code : c.seq = Seq.idle) (same : d = c)
  | pad1 (code : c.seq = Seq.pad1) (last : Bool) (new : d = { c with last := last, bufCnt := 64, seq := Seq.load })
  | pad2 (code : c.seq = Seq.pad2) (new : d = { c with last := true, bufCnt := 64, seq := Seq.load })
  | load (code : c.seq = Seq.load)
      (new : d = { c with bufCnt := Fin.ofNat 68 (c.bufCnt.val - 64), seq := Seq.round 0 })
  | round (n : BitVec 6) (code : c.seq = Seq.round n)
      (new : d = { c with seq := if n.toNat < 63 then Seq.round (n + 1) else Seq.feed })
  | feedBlock (code : c.seq = Seq.feed) (phase : c.phase = Phase.block)
      (new : d = { c with phase := Phase.ready, seq := Seq.idle })
  | feedFinal (code : c.seq = Seq.feed) (phase : c.phase = Phase.final)
      (new : d = { c with seq := if c.last then Seq.ser else Seq.pad2 })
  | ser (code : c.seq = Seq.ser) (new : d = { c with phase := Phase.done, seq := Seq.idle })

theorem seqTurn_seqMove {s t : State} (h : seqTurn s = .next t) : SeqMove s.control t.control := by
  obtain ⟨i, code, e⟩ | e := seqTurn_cases s <;> rw [e] at h
  · obtain ⟨q, rfl⟩ | ⟨q, rfl⟩ | ⟨q, rfl⟩ | ⟨q, rfl⟩ | ⟨q, rfl⟩ | ⟨q, rfl⟩ | ⟨n, q, rfl⟩ := decode_seq_ok code
    · cases h; exact .idle q rfl
    · obtain ⟨-, rfl⟩ | ⟨-, -, rfl⟩ := execPad1_next h <;> exact .pad1 q _ rfl
    · cases h; exact .pad2 q rfl
    · obtain ⟨-, rfl⟩ := execLoad_next h; exact .load q rfl
    · obtain ⟨p, rfl⟩ | ⟨p, rfl⟩ := execFeed_next h
      · exact .feedBlock q p rfl
      · exact .feedFinal q p rfl
    · obtain ⟨-, rfl⟩ := execSer_next h; exact .ser q rfl
    · cases h; exact .round n q rfl
  · cases h

/-- The registers of R42's table after an accepted UPDATE of `nb` bytes (R165). -/
def Control.absorb (nb : BitVec 3) (c : Control) : Control :=
  { c with
    bufCnt := Fin.ofNat 68 (c.bufCnt.val + nb.toNat)
    bitLen := c.bitLen + BitVec.ofNat 64 (8 * nb.toNat)
    phase := if 64 ≤ c.bufCnt.val + nb.toNat then Phase.block else c.phase
    seq := if 64 ≤ c.bufCnt.val + nb.toNat then Seq.load else c.seq }

theorem absorbed_control (nb : BitVec 3) (s : State) : (absorbed nb s).control = s.control.absorb nb := rfl

/-- What an access of HOST does to the registers of R42's table, where `cmd v` says that it writes the word `v` to
CMD. -/
inductive HostMove (cmd : Word → Prop) (c d : Control) : Prop
  | keeps (same : d = c)
  | restarts (word : cmd 1) (new : d = State.reset.control)
  | overflows (ready : c.phase = Phase.ready) (new : d = { c with phase := Phase.failed })
  | absorbs (nb : BitVec 3) (le : nb.toNat ≤ 4) (word : cmd (0x2 ||| nb.setWidth 32 <<< 8))
      (ready : c.phase = Phase.ready) (len : c.bitLen.toNat + 8 * nb.toNat < 2 ^ 64) (new : d = c.absorb nb)
  | finalizes (word : cmd 3) (ready : c.phase = Phase.ready)
      (new : d = { c with phase := Phase.final, seq := Seq.pad1 })

theorem HostMove.mono {p q : Word → Prop} {c d : Control} (imp : ∀ v, p v → q v) (h : HostMove p c d) :
    HostMove q c d := by
  cases h with
  | keeps same => exact .keeps same
  | restarts word new => exact .restarts (imp _ word) new
  | overflows ready new => exact .overflows ready new
  | absorbs nb le word ready len new => exact .absorbs nb le (imp _ word) ready len new
  | finalizes word ready new => exact .finalizes (imp _ word) ready new

/-- A rejected command keeps the table's registers, unless its error is LENOVF (R191). -/
theorem raise_control {e : ErrCode} (h : e ≠ .lenovf) (s : State) : (raise e s).control = s.control := by
  simp [State.control, h]

theorem execUpdate_hostMove {nb : BitVec 3} {s t : State} (h : execUpdate nb s = .next t) :
    HostMove (· = 0x2 ||| nb.setWidth 32 <<< 8) s.control t.control := by
  obtain ⟨-, rfl⟩ | ⟨-, rfl⟩ | ⟨-, rfl⟩ | ⟨hp, -, rfl⟩ | ⟨le, hp, len, -, rfl⟩ := execUpdate_next h
  · exact .keeps (raise_control (by decide) s)
  · exact .keeps (raise_control (by decide) s)
  · exact .keeps (raise_control (by decide) s)
  · exact .overflows hp rfl
  · exact .absorbs nb le rfl hp len (absorbed_control nb s)

theorem execFinalize_hostMove {s t : State} (h : execFinalize s = .next t) :
    HostMove (· = 3) s.control t.control := by
  obtain ⟨-, rfl⟩ | ⟨-, rfl⟩ | ⟨hp, rfl⟩ := execFinalize_next h
  · exact .keeps (raise_control (by decide) s)
  · exact .keeps (raise_control (by decide) s)
  · exact .finalizes rfl hp rfl

theorem command_hostMove {v : Word} {s t : State} (h : command v s = .next t) :
    HostMove (· = v) s.control t.control := by
  obtain ⟨i, code, e⟩ | ⟨-, -, e⟩ := command_cases v s <;> rw [e] at h
  · obtain ⟨rfl, rfl⟩ | ⟨rfl, rfl⟩ | ⟨nb, -, rfl, rfl⟩ | ⟨rfl, rfl⟩ := decode_cmd_ok code
    · cases h; exact .keeps rfl
    · cases h; exact .restarts rfl rfl
    · exact execUpdate_hostMove h
    · exact execFinalize_hostMove h
  · cases h; exact .keeps (raise_control (by decide) s)

theorem memWrite_hostMove {off : BitVec 6} {v : Word} {s t : State} (h : memWrite off v s = .next t) :
    HostMove (fun w => w = v ∧ WinReg.ofOffset off = .cmd) s.control t.control := by
  obtain ⟨r, e⟩ | ⟨-, e⟩ | ⟨-, e⟩ | ⟨-, -, -, e⟩ := writeReg_cases (WinReg.ofOffset off) v s <;>
    rw [memWrite, e] at h
  · exact (command_hostMove h).mono fun _ hw => ⟨hw, r⟩
  all_goals cases h; exact .keeps rfl

theorem hostTurn_hostMove {s t : State} (h : hostTurn s = .next t) :
    HostMove (fun v => ∃ off rest, s.host = .write off v :: rest ∧ WinReg.ofOffset off = .cmd) s.control t.control := by
  obtain ⟨-, e⟩ | ⟨_, _, -, e⟩ | ⟨off, v, rest, op, e⟩ | ⟨_, -, -, e⟩ | ⟨_, -, -, e⟩ := hostTurn_cases s <;>
    rw [e] at h
  case inr.inr.inl =>
    exact (memWrite_hostMove h).mono fun _ ⟨hv, hr⟩ => ⟨off, rest, hv ▸ op, hr⟩
  all_goals cases h; exact .keeps rfl

/-! ### Every step keeps the table -/

theorem resetState_control_inv : State.reset.control.Inv :=
  ⟨rfl, .ready rfl rfl (by decide) rfl rfl⟩

theorem Control.absorb_inv {nb : BitVec 3} {c : Control} (ready : c.phase = Phase.ready) (le : nb.toNat ≤ 4)
    (len : c.bitLen.toNat + 8 * nb.toNat < 2 ^ 64) (inv : c.Inv) : (c.absorb nb).Inv := by
  obtain ⟨mul, row⟩ := inv
  obtain ⟨seq, cnt, mod, last⟩ := row.of_ready ready
  have cnt' : (c.absorb nb).bufCnt.val = c.bufCnt.val + nb.toNat := Nat.mod_eq_of_lt (by omega)
  have bits' : (c.absorb nb).bitLen.toNat = c.bitLen.toNat + 8 * nb.toNat := by
    rw [Control.absorb, BitVec.toNat_add, BitVec.toNat_ofNat]; omega
  have mod' : (c.absorb nb).bufCnt.val % 64 = (c.absorb nb).lengthMod := by
    simp only [Control.lengthMod] at *; omega
  refine ⟨by omega, ?_⟩
  by_cases full : 64 ≤ c.bufCnt.val + nb.toNat
  · exact .blockLoad (if_pos full) (if_pos full) (by omega) (by omega) mod' last
  · exact .ready ((if_neg full).trans ready) ((if_neg full).trans seq) (by omega) (by omega) last

theorem HostMove.keeps_inv {p : Word → Prop} {c d : Control} (h : HostMove p c d) (inv : c.Inv) : d.Inv := by
  cases h with
  | keeps same => exact same ▸ inv
  | restarts _ new => exact new ▸ resetState_control_inv
  | overflows ready new =>
    obtain ⟨seq, cnt, mod, last⟩ := inv.2.of_ready ready
    exact new ▸ ⟨inv.1, .failed rfl seq cnt mod last⟩
  | absorbs nb le _ ready len new => exact new ▸ Control.absorb_inv ready le len inv
  | finalizes _ ready new =>
    obtain ⟨-, cnt, mod, last⟩ := inv.2.of_ready ready
    exact new ▸ ⟨inv.1, .pad1 rfl rfl cnt mod last⟩

theorem Control.load_inv {c : Control} (code : c.seq = Seq.load) (inv : c.Inv) :
    { c with bufCnt := Fin.ofNat 68 (c.bufCnt.val - 64), seq := Seq.round 0 : Control }.Inv := by
  obtain ⟨mul, row⟩ := inv
  have lt := c.bufCnt.isLt
  have cnt' : (Fin.ofNat 68 (c.bufCnt.val - 64)).val = c.bufCnt.val - 64 := Nat.mod_eq_of_lt (by omega)
  obtain ⟨phase, ge, mod, last⟩ | ⟨phase, cnt⟩ := row.of_load code
  · refine ⟨mul, .blockRounds phase (.inl (isRound_round 0)) ?_ ?_ last⟩
    · show (Fin.ofNat 68 _).val ≤ 3
      omega
    · show (Fin.ofNat 68 _).val = c.lengthMod
      omega
  · refine ⟨mul, .finalRounds phase (.inl (isRound_round 0)) ?_⟩
    show (Fin.ofNat 68 _).val = 0
    omega

theorem SeqMove.keeps_inv {c d : Control} (h : SeqMove c d) (inv : c.Inv) : d.Inv := by
  have ⟨mul, row⟩ := inv
  cases h with
  | idle _ same => exact same ▸ inv
  | pad1 code last new => exact new ▸ ⟨mul, .finalLoad (row.phase_of_pad (.inl code)) rfl rfl⟩
  | pad2 code new => exact new ▸ ⟨mul, .finalLoad (row.phase_of_pad (.inr code)) rfl rfl⟩
  | load code new => exact new ▸ Control.load_inv code inv
  | round n code new =>
    have seq' : Seq.isRound d.seq ∨ d.seq = Seq.feed := by
      rw [new]
      dsimp only
      split
      · exact .inl (isRound_round _)
      · exact .inr rfl
    subst new
    obtain ⟨phase, cnt, mod, last⟩ | ⟨phase, cnt⟩ := row.of_rounds (.inl (code ▸ isRound_round n))
    · exact ⟨mul, .blockRounds phase seq' cnt mod last⟩
    · exact ⟨mul, .finalRounds phase seq' cnt⟩
  | feedBlock code phase new =>
    subst new
    obtain ⟨-, cnt, mod, last⟩ | ⟨final, -⟩ := row.of_rounds (.inr code)
    · exact ⟨mul, .ready rfl rfl (le_trans cnt (by decide)) mod last⟩
    · exact absurd (phase.symm.trans final) (by decide)
  | feedFinal code phase new =>
    subst new
    obtain ⟨block, -⟩ | ⟨-, cnt⟩ := row.of_rounds (.inr code)
    · exact absurd (phase.symm.trans block) (by decide)
    · cases c.last
      · exact ⟨mul, .pad2 phase rfl cnt rfl⟩
      · exact ⟨mul, .ser phase rfl cnt rfl⟩
  | ser code new =>
    obtain ⟨cnt, last⟩ := row.of_ser code
    exact new ▸ ⟨mul, .done rfl rfl cnt last⟩

/-- What a step does to the registers of R42's table, by whose turn it is. -/
theorem step_control {s t : State} (h : step s = .next t) :
    (nextTurn s = .reset ∧ t.control = State.reset.control) ∨
    (nextTurn s = .host ∧ HostMove s.issues s.control t.control) ∨
    (nextTurn s = .seq ∧ SeqMove s.control t.control) := by
  obtain ⟨turn, e⟩ | ⟨turn, -, e⟩ | ⟨turn, -, e⟩ | ⟨-, -, f, -, e⟩ := step_cases s <;> rw [e] at h
  · cases h; exact .inl ⟨turn, rfl⟩
  · exact .inr (.inl ⟨turn, (hostTurn_hostMove h).mono fun _ op => ⟨turn, op⟩⟩)
  · exact .inr (.inr ⟨turn, seqTurn_seqMove (s := beginStep s) h⟩)
  · cases h

/-- R42 is kept by every step, with the agreement at LOAD in BLOCK that makes it inductive. -/
theorem step_keeps_inv {s t : State} (h : step s = .next t) (inv : s.Inv) : t.Inv := by
  rw [inv_iff_control_inv] at *
  obtain ⟨-, new⟩ | ⟨-, move⟩ | ⟨-, move⟩ := step_control h
  · exact new ▸ resetState_control_inv
  · exact move.keeps_inv inv
  · exact move.keeps_inv inv

theorem run_succ_next {n : Nat} {s t : State} (h : run (n + 1) s = .next t) :
    ∃ u, step s = .next u ∧ run n u = .next t := by
  simp only [run, Host.Core.run] at h
  split at h
  · exact ⟨_, ‹_›, h⟩
  · cases h
  · cases h

/-- What every step keeps holds at the end of every run. -/
theorem run_invariant {P : State → Prop} (keep : ∀ s t, step s = .next t → P s → P t) {n : Nat} {s t : State}
    (h : run n s = .next t) (start : P s) : P t := by
  induction n generalizing s with
  | zero => cases h; exact start
  | succ n ih =>
    obtain ⟨u, first, rest⟩ := run_succ_next h
    exact ih rest (keep s u first start)

/-- Settles O38: `State.Inv` holds at reset and every step keeps it. -/
theorem reachableStatesAreInTheTable : Obligations.ReachableStatesAreInTheTable := by
  intro x win buf host turns n t h
  refine (run_invariant (P := State.Inv) (fun _ _ => step_keeps_inv) h ?_).1
  exact (inv_iff_control_inv _).mpr resetState_control_inv

/-! ### Where SEQ goes -/

/-- Where an access of HOST leaves SEQ. -/
theorem HostMove.seq_cases {s t : State} (h : HostMove s.issues s.control t.control) :
    t.seq = s.seq ∨ (s.issues 1 ∧ t.seq = Seq.idle) ∨
    (s.phase = Phase.ready ∧ t.seq = Seq.load ∧ ∃ nb : BitVec 3, nb.toNat ≤ 4 ∧
      s.issues (0x2 ||| nb.setWidth 32 <<< 8) ∧ 64 ≤ s.bufCnt.val + nb.toNat) ∨
    (s.phase = Phase.ready ∧ s.issues 3 ∧ t.seq = Seq.pad1) := by
  cases h with
  | keeps same => exact .inl (congrArg Control.seq same)
  | restarts word new => exact .inr (.inl ⟨word, congrArg Control.seq new⟩)
  | overflows _ new => exact .inl (congrArg Control.seq new)
  | absorbs nb le word ready _ new =>
    have seq' : t.seq = if 64 ≤ s.bufCnt.val + nb.toNat then Seq.load else s.seq := congrArg Control.seq new
    by_cases full : 64 ≤ s.bufCnt.val + nb.toNat
    · exact .inr (.inr (.inl ⟨ready, seq'.trans (if_pos full), nb, le, word, full⟩))
    · exact .inl (seq'.trans (if_neg full))
  | finalizes word ready new => exact .inr (.inr (.inr ⟨ready, word, congrArg Control.seq new⟩))

/-- Where SEQ's step goes (R172). -/
theorem SeqMove.seq_cases {s t : State} (h : SeqMove s.control t.control) :
    (s.seq = Seq.idle ∧ t.seq = Seq.idle) ∨
    ((s.seq = Seq.pad1 ∨ s.seq = Seq.pad2) ∧ t.seq = Seq.load) ∨
    (s.seq = Seq.load ∧ t.seq.toNat = 0x40) ∨
    (0x40 ≤ s.seq.toNat ∧ s.seq.toNat < 0x7F ∧ t.seq.toNat = s.seq.toNat + 1) ∨
    (s.seq.toNat = 0x7F ∧ t.seq = Seq.feed) ∨
    (s.seq = Seq.feed ∧ s.phase = Phase.block ∧ t.seq = Seq.idle) ∨
    (s.seq = Seq.feed ∧ s.phase = Phase.final ∧ t.seq = if s.last then Seq.ser else Seq.pad2) ∨
    (s.seq = Seq.ser ∧ t.seq = Seq.idle) := by
  cases h with
  | idle code same => exact .inl ⟨code, (congrArg Control.seq same).trans code⟩
  | pad1 code _ new => exact .inr (.inl ⟨.inl code, congrArg Control.seq new⟩)
  | pad2 code new => exact .inr (.inl ⟨.inr code, congrArg Control.seq new⟩)
  | load code new => exact .inr (.inr (.inl ⟨code, congrArg (·.seq.toNat) new⟩))
  | round n code new =>
    have seq' : t.seq = if n.toNat < 63 then Seq.round (n + 1) else Seq.feed := congrArg Control.seq new
    have code' : s.seq.toNat = 0x40 + n.toNat := (congrArg BitVec.toNat code).trans (round_toNat n)
    have lt := n.isLt
    by_cases more : n.toNat < 63
    · rw [if_pos more] at seq'
      have next' : (n + 1).toNat = n.toNat + 1 := BitVec.toNat_add_of_lt (by simp; omega)
      exact .inr (.inr (.inr (.inl ⟨by omega, by omega, by rw [seq', round_toNat, next']; omega⟩)))
    · exact .inr (.inr (.inr (.inr (.inl ⟨by omega, seq'.trans (if_neg more)⟩))))
  | feedBlock code phase new =>
    exact .inr (.inr (.inr (.inr (.inr (.inl ⟨code, phase, congrArg Control.seq new⟩)))))
  | feedFinal code phase new =>
    exact .inr (.inr (.inr (.inr (.inr (.inr (.inl ⟨code, phase, congrArg Control.seq new⟩))))))
  | ser code new => exact .inr (.inr (.inr (.inr (.inr (.inr (.inr ⟨code, congrArg Control.seq new⟩))))))

/-- Settles O45: the reset event, an access of HOST and SEQ's step, each by what it does to SEQ. -/
theorem sequencerFollowsTheSuccessorTable : Obligations.SequencerFollowsTheSuccessorTable := by
  intro s t h
  obtain ⟨turn, new⟩ | ⟨turn, move⟩ | ⟨turn, move⟩ := step_control h <;> rw [turn]
  · exact ⟨fun _ => congrArg Control.seq new, nofun, nofun⟩
  · exact ⟨nofun, fun _ => move.seq_cases, nofun⟩
  · exact ⟨nofun, nofun, fun _ => move.seq_cases⟩

/-! ### STATUS -/

@[simp] theorem getLsbD_flag (b : Bool) (w i : Nat) :
    (flag b w).getLsbD i = (b && decide (0 < w) && decide (i = 0)) := by
  cases b <;> simp [flag]

/-- R34, bit by bit. -/
theorem statusWord_getLsbD (s : State) (i : Nat) :
    (statusWord s).getLsbD i =
      if i = 0 then s.busy else if i < 4 then s.phase.getLsbD (i - 1) else if i = 4 then s.last
      else if i < 8 then false else if i < 16 then s.seq.getLsbD (i - 8)
      else if i < 23 then s.bufCnt.val.testBit (i - 16) else if i = 23 then s.errAny else false := by
  have phase : 4 ≤ i → s.phase.getLsbD (i - 1) = false := fun h => BitVec.getLsbD_of_ge _ _ (by omega)
  have seq : 16 ≤ i → s.seq.getLsbD (i - 8) = false := fun h => BitVec.getLsbD_of_ge _ _ (by omega)
  have cnt : 23 ≤ i → s.bufCnt.val.testBit (i - 16) = false := fun h =>
    Nat.testBit_lt_two_pow (lt_of_lt_of_le (show s.bufCnt.val < 2 ^ 7 by omega)
      (Nat.pow_le_pow_right (by decide) (by omega)))
  simp only [statusWord, BitVec.getLsbD_or, BitVec.getLsbD_shiftLeft, BitVec.getLsbD_setWidth, getLsbD_flag,
    BitVec.getLsbD_ofNat]
  generalize s.bufCnt.val.testBit (i - 16) = b at *
  grind

/-- A field of STATUS is told by its bits. -/
theorem statusWord_extractLsb' {s : State} {lo w : Nat} {x : BitVec w}
    (bits : ∀ j < w, (statusWord s).getLsbD (lo + j) = x.getLsbD j) : (statusWord s).extractLsb' lo w = x :=
  BitVec.eq_of_getLsbD_eq fun j hj => by rw [BitVec.getLsbD_extractLsb', bits j hj]; simp [hj]

/-- Settles O21, field by field from the bits of STATUS. -/
theorem statusFieldsAreTheRegisters : Obligations.StatusFieldsAreTheRegisters := by
  intro s
  have cnt : (statusWord s).extractLsb' 16 7 = BitVec.ofNat 7 s.bufCnt.val :=
    statusWord_extractLsb' fun j hj => by
      rw [statusWord_getLsbD, BitVec.getLsbD_ofNat]; grind
  refine ⟨?_, statusWord_extractLsb' fun j hj => ?_, ?_, statusWord_extractLsb' fun j hj => ?_,
    statusWord_extractLsb' fun j hj => ?_, ?_, ?_, statusWord_extractLsb' fun j hj => ?_, fun _ => rfl⟩
  · rw [statusWord_getLsbD]; simp [State.busy]
  · rw [statusWord_getLsbD]; grind
  · rw [statusWord_getLsbD]; simp
  · rw [statusWord_getLsbD]; grind
  · rw [statusWord_getLsbD]; grind
  · rw [cnt, BitVec.toNat_ofNat]; omega
  · rw [statusWord_getLsbD]; simp [State.errAny]
  · rw [statusWord_getLsbD]; grind

/-! ### The Digest -/

theorem bytes32_getElem? (x : Word) {j : Nat} (hj : j < 4) :
    (bytes32 x)[j]? = some (x.extractLsb' (24 - 8 * j) 8) := by
  interval_cases j <;> rfl

theorem flatMap_bytes32_length (l : List Word) : (l.flatMap bytes32).length = 4 * l.length := by
  simp [List.length_flatMap, mul_comm]

theorem flatMap_bytes32_getElem? (l : List Word) {i j : Nat} (hi : i < l.length) (hj : j < 4) :
    (l.flatMap bytes32)[4 * i + j]? = some (l[i].extractLsb' (24 - 8 * j) 8) := by
  induction l generalizing i with
  | nil => simp at hi
  | cons x l ih =>
    rw [List.flatMap_cons]
    cases i with
    | zero => rw [List.getElem?_append_left (by simpa using hj)]; simpa using bytes32_getElem? x hj
    | succ i =>
      have skip : 4 * (i + 1) + j - (bytes32 x).length = 4 * i + j := by rw [bytes32_length]; omega
      rw [List.getElem?_append_right (by rw [bytes32_length]; omega), skip]
      exact ih (by simpa using hi)

theorem serialize_length (cv : Vector Word 8) : (serialize cv).length = 32 := by
  rw [serialize, flatMap_bytes32_length, Vector.length_toList]

theorem serialize_getElem? (cv : Vector Word 8) {i j : Nat} (hi : i < 8) (hj : j < 4) :
    (serialize cv)[4 * i + j]? = some (cv[i].extractLsb' (24 - 8 * j) 8) :=
  flatMap_bytes32_getElem? cv.toList (by simpa using hi) hj

theorem ofOffset_digest (i : Fin 8) : WinReg.ofOffset (BitVec.ofNat 6 (0x20 + 4 * i.val)) = .digest i := by
  revert i; decide

/-- Settles O23: byte `4i + j` of `serialize` is byte `j` of CV[i], which DIGESTi reads in DONE. -/
theorem digestRegistersHoldTheDigest : Obligations.DigestRegistersHoldTheDigest := by
  intro s i hi
  have reg : WinReg.ofOffset (BitVec.ofNat 6 (0x20 + 4 * i)) = .digest ⟨i, hi⟩ := ofOffset_digest ⟨i, hi⟩
  simp only [memRead, memWrite, reg, readReg, writeReg]
  refine ⟨fun done => ⟨serialize_length s.cv, fun j hj => ?_⟩, fun other => if_neg other, fun _ => trivial⟩
  rw [if_pos done]
  exact ⟨serialize_getElem? s.cv hi hj, serialize_getElem? s.cv hi hj⟩

end Sys2Proof.Machine

/-! SUPPORT. The family of 20_memory.md: the register an offset selects, and HOST's read and write as whole steps. -/

namespace Sys2Proof.Machine

/-! ### The register an offset selects -/

/-- R51, R56: an access reaches the register whose aligned offset is in the same Word of the window. -/
theorem ofOffset_eq_iff (off : BitVec 6) (r : WinReg) :
    WinReg.ofOffset off = r ↔ off.toNat / 4 = r.offset.toNat / 4 := by
  cases r with
  | digest i => revert off i; decide
  | _ => revert off; decide

theorem digest_offset_div_four (i : Fin 8) : (WinReg.digest i).offset.toNat / 4 = 8 + i.val := by
  revert i; decide

theorem memRead_of_offset {off : BitVec 6} {r : WinReg} (s : State) (h : off.toNat / 4 = r.offset.toNat / 4) :
    memRead off s = readReg r s := by
  rw [memRead, (ofOffset_eq_iff off r).mpr h]

theorem memWrite_of_offset {off : BitVec 6} {r : WinReg} (v : Word) (s : State)
    (h : off.toNat / 4 = r.offset.toNat / 4) : memWrite off v s = writeReg r v s := by
  rw [memWrite, (ofOffset_eq_iff off r).mpr h]

/-- R54: a write that reaches none of ERR, CMD and DIN is ignored. -/
theorem memWrite_ignored {off : BitVec 6} {v : Word} {s : State} (err : off.toNat / 4 ≠ 2)
    (cmd : off.toNat / 4 ≠ 3) (din : off.toNat / 4 ≠ 4) : memWrite off v s = .next s := by
  obtain ⟨r, -⟩ | ⟨r, -⟩ | ⟨r, -⟩ | ⟨-, -, -, e⟩ := writeReg_cases (WinReg.ofOffset off) v s
  · exact absurd ((ofOffset_eq_iff off .cmd).mp r) cmd
  · exact absurd ((ofOffset_eq_iff off .err).mp r) err
  · exact absurd ((ofOffset_eq_iff off .din).mp r) din
  · exact e

/-! ### HOST's accesses as steps -/

theorem step_of_host_turn {s : State} (wf : s.wf) (turn : nextTurn s = .host) : step s = hostTurn (beginStep s) := by
  rw [step, turn]
  exact whenReached_of_wf (s := beginStep s) wf

theorem hostTurn_read {s : State} {off : BitVec 6} {rest : List HostOp} (op : s.host = .read off :: rest) :
    hostTurn s = .next (readAccess off { s with host := rest }) := by
  rw [hostTurn, op]

theorem hostTurn_write {s : State} {off : BitVec 6} {v : Word} {rest : List HostOp}
    (op : s.host = .write off v :: rest) : hostTurn s = memWrite off v { s with host := rest } := by
  rw [hostTurn, op]

/-- No register reads what the environment holds, nor rdata. -/
theorem memRead_frame (off : BitVec 6) (s : State) (host : List HostOp) (turns : List Turn) (rdata : Option Word) :
    memRead off { s with host := host, turns := turns, rdata := rdata } = memRead off s := by
  unfold memRead
  cases WinReg.ofOffset off <;> rfl

/-- R53: a read access of HOST is one step that drives rdata and changes nothing else of the core. -/
theorem step_read {s : State} {off : BitVec 6} {rest : List HostOp} (wf : s.wf) (turn : nextTurn s = .host)
    (op : s.host = .read off :: rest) :
    step s = .next { s with host := rest, turns := s.turns.tail, rdata := some (memRead off s) } := by
  rw [step_of_host_turn wf turn, hostTurn_read (s := beginStep s) op, ← memRead_frame off s rest s.turns.tail none]
  rfl

/-- R54: a write access of HOST is one step, the effect of the write on the core. -/
theorem step_write {s : State} {off : BitVec 6} {v : Word} {rest : List HostOp} (wf : s.wf)
    (turn : nextTurn s = .host) (op : s.host = .write off v :: rest) :
    step s = memWrite off v { s with host := rest, turns := s.turns.tail, rdata := none } :=
  (step_of_host_turn wf turn).trans (hostTurn_write (s := beginStep s) op)

/-- Settles O18: the step drives `memRead off s`, which is `readReg` of the register in the offset's Word. -/
theorem hostReadReturnsTheRegister : Obligations.HostReadReturnsTheRegister := by
  intro s off rest wf turn op
  refine ⟨memRead off s, step_read wf turn op, fun id => ?_, fun status => ?_, fun err => ?_, fun cmd => ?_,
    fun din => ?_, fun lo => ?_, fun hi => ?_, fun reserved => ?_, fun i lt digest => ?_⟩
  · exact memRead_of_offset (r := .id) s id
  · exact memRead_of_offset (r := .status) s status
  · rw [memRead_of_offset (r := .err) s err]
    exact BitVec.toNat_setWidth_of_le (by decide)
  · exact memRead_of_offset (r := .cmd) s cmd
  · exact memRead_of_offset (r := .din) s din
  · rw [memRead_of_offset (r := .bitLenLo) s lo]
    simp [readReg]
  · rw [memRead_of_offset (r := .bitLenHi) s hi, readReg, BitVec.extractLsb'_toNat]
    omega
  · exact memRead_of_offset (r := .reserved) s reserved
  · exact memRead_of_offset (r := .digest ⟨i, lt⟩) s (digest.trans (digest_offset_div_four ⟨i, lt⟩).symm)

/-- Settles O19: the step is `memWrite off v`, which is `writeReg` of the register in the offset's Word. -/
theorem hostWriteActsByRegister : Obligations.HostWriteActsByRegister := by
  rintro s off v rest s0 wf turn op rfl
  rw [step_write wf turn op]
  refine ⟨fun err => ?_, fun cmd => ?_, fun din => ?_, memWrite_ignored⟩
  · exact memWrite_of_offset (r := .err) v _ err
  · exact memWrite_of_offset (r := .cmd) v _ cmd
  · exact memWrite_of_offset (r := .din) v _ din

end Sys2Proof.Machine

/-! SUPPORT. The family of 30_encoding.md: the command words that are legal, and the whole map of SEQ codes. -/

namespace Sys2Proof.Machine

/-! ### Command words -/

/-- R83's eight words, as the spec lists them. -/
def legalWords : List Word :=
  [0x00000000, 0x00000001, 0x00000003, 0x00000002, 0x00000102, 0x00000202, 0x00000302, 0x00000402]

theorem legal_of_mem_legalWords : ∀ v ∈ legalWords, legal v = true :=
  List.all_eq_true.mp (by decide)

/-- UPDATE with NB = 0..4 is among them (R82, R83). -/
theorem update_word_mem_legalWords :
    ∀ nb : BitVec 3, nb.toNat ≤ 4 → (0x2 ||| nb.setWidth 32 <<< 8 : Word) ∈ legalWords := by decide

theorem mem_legalWords_of_decode {v : Word} {i : Instr} (h : decode (.cmd v) = .ok i) : v ∈ legalWords := by
  obtain ⟨rfl, -⟩ | ⟨rfl, -⟩ | ⟨nb, le, rfl, -⟩ | ⟨rfl, -⟩ := decode_cmd_ok h
  · decide
  · decide
  · exact update_word_mem_legalWords nb le
  · decide

theorem withoutNb_of_nb_zero {v : Word} (nb : nbField v = 0) (i : Instr) : withoutNb v i = .ok i := if_pos nb

/-- A word that satisfies R83's predicate decodes, by the decoder's branch for its OP. -/
theorem decode_of_legal {v : Word} (h : legal v = true) : ∃ i, decode (.cmd v) = .ok i := by
  simp only [legal, Bool.and_eq_true, Bool.or_eq_true, decide_eq_true_eq] at h
  obtain ⟨mask, ⟨op | op | op, nb⟩ | ⟨op, nb⟩⟩ := h
  · exact ⟨.nop, by simp [decode, decodeCmd, mask, op, withoutNb_of_nb_zero nb]⟩
  · exact ⟨.init, by simp [decode, decodeCmd, mask, op, withoutNb_of_nb_zero nb]⟩
  · exact ⟨.finalize, by simp [decode, decodeCmd, mask, op, withoutNb_of_nb_zero nb]⟩
  · exact ⟨.update (nbField v), by simp [decode, decodeCmd, mask, op, nb]⟩

/-- Settles O28: a legal word decodes, a word that decodes is one of the eight, and each of the eight is legal. -/
theorem exactlyEightWordsAreCommands : Obligations.ExactlyEightWordsAreCommands := by
  intro v
  refine ⟨⟨fun isLegal => ?_, legal_of_mem_legalWords v⟩, decode_of_legal, fun ⟨i, dec⟩ => ?_⟩
  · obtain ⟨i, dec⟩ := decode_of_legal isLegal
    exact mem_legalWords_of_decode dec
  · exact legal_of_mem_legalWords v (mem_legalWords_of_decode dec)

/-! ### SEQ codes -/

theorem decode_seq_round (t : BitVec 6) : decode (.seq (Seq.round t)) = .ok (.round t) := by
  revert t; decide

/-- The one reason a SEQ code is turned away (R87). -/
theorem decode_seq_error {q : BitVec 8} {e : Reject} (h : decode (.seq q) = .error e) : e = .unusedSeqCode := by
  simp only [decode, decodeSeq] at h
  split_ifs at h
  cases h
  rfl

/-- R29: a SEQ code that decodes is at most SER's, or one of the 64 codes from ROUND(0)'s. -/
theorem toNat_of_decode_seq {q : BitVec 8} {i : Instr} (h : decode (.seq q) = .ok i) :
    q.toNat ≤ 5 ∨ (0x40 ≤ q.toNat ∧ q.toNat < 0x80) := by
  obtain ⟨rfl, -⟩ | ⟨rfl, -⟩ | ⟨rfl, -⟩ | ⟨rfl, -⟩ | ⟨rfl, -⟩ | ⟨rfl, -⟩ | ⟨t, rfl, -⟩ := decode_seq_ok h
  iterate 6 exact .inl (by decide)
  have value := round_toNat t
  exact .inr (by omega)

theorem decode_seq_unused {q : BitVec 8} (unused : (0x06 ≤ q.toNat ∧ q.toNat ≤ 0x3F) ∨ 0x80 ≤ q.toNat) :
    decode (.seq q) = .error .unusedSeqCode := by
  cases dec : decode (.seq q) with
  | ok i =>
    have used := toNat_of_decode_seq dec
    omega
  | error e => rw [decode_seq_error dec]

/-- Settles O30: STATUS by its own fields, a code of ROUND(t) by its value, an unused one by the values that decode. -/
theorem seqCodesDecodeAsListed : Obligations.SeqCodesDecodeAsListed := by
  refine ⟨fun s => ?_, fun q => ⟨?_, ?_, ?_, ?_, ?_, ?_, fun t code => ?_, decode_seq_unused⟩⟩
  · obtain ⟨-, -, -, -, seq, -, -, -, ignored⟩ := statusFieldsAreTheRegisters s
    exact ⟨(congrArg _ (memRead_of_offset (r := .status) s rfl)).trans seq, ignored⟩
  iterate 6 · rintro rfl; rfl
  · have round : q = Seq.round t := BitVec.eq_of_toNat_eq (code.trans (round_toNat t).symm)
    rw [round, decode_seq_round]

end Sys2Proof.Machine

/-! SUPPORT. The family of 40_word_ops.md: rotation, shift and the sigma functions bit by bit, and the bytes of a Word. -/

namespace Sys2Proof.Machine

/-! ### Rotation and shift -/

/-- R104: the right shift supplies the bits below `32 - n`, the left shift those from there on. -/
theorem rotr_getLsbD (x : Word) {n i : Nat} (hn : n ≤ 31) (hi : i < 32) :
    (rotr x n).getLsbD i = x.getLsbD ((i + n) % 32) := by
  rw [rotr, BitVec.getLsbD_or, BitVec.getLsbD_ushiftRight, BitVec.getLsbD_shiftLeft, Nat.add_comm n i]
  by_cases low : i < 32 - n
  · have source : (i + n) % 32 = i + n := Nat.mod_eq_of_lt (by omega)
    simp [source, low]
  · have source : (i + n) % 32 = i - (32 - n) := by omega
    have zero : x.getLsbD (i + n) = false := BitVec.getLsbD_of_ge _ _ (by omega)
    simp [source, zero, low, hi]

theorem shr_toNat (x : Word) (n : Nat) : (shr x n).toNat = x.toNat / 2 ^ n := by
  rw [shr, BitVec.toNat_ushiftRight, Nat.shiftRight_eq_div_pow]

/-- R105: the shift fills with zeros from bit `32 - n` on. -/
theorem shr_getLsbD (x : Word) (n i : Nat) : (shr x n).getLsbD i = (decide (i < 32 - n) && x.getLsbD (i + n)) := by
  rw [shr, BitVec.getLsbD_ushiftRight, Nat.add_comm]
  by_cases inside : i < 32 - n
  · simp [inside]
  · simp [inside, BitVec.getLsbD_of_ge x (i + n) (by omega)]

/-- Settles O56: a sigma is an XOR, which works bit by bit, of rotations and shifts. -/
theorem rotationAndShiftByBits : Obligations.RotationAndShiftByBits := by
  refine ⟨fun x n _ hn => ⟨fun i hi => rotr_getLsbD x hn hi, shr_toNat x n⟩, fun x i hi => ?_⟩
  have rot {n : Nat} (hn : n ≤ 31) := rotr_getLsbD x hn hi
  simp only [smallSigma0, smallSigma1, bigSigma0, bigSigma1, BitVec.getLsbD_xor, shr_getLsbD]
  refine ⟨?_, ?_, ?_, ?_⟩ <;> simp only [rot, Nat.reduceLeDiff, Nat.reduceSub]

/-! ### Big-endian bytes -/

theorem append_byte_toNat {w : Nat} (x : BitVec w) (b : Byte) : (x ++ b).toNat = x.toNat * 2 ^ 8 + b.toNat := by
  rw [BitVec.toNat_append, ← Nat.shiftLeft_add_eq_or_of_lt b.isLt, Nat.shiftLeft_eq]

theorem be32_toNat (b0 b1 b2 b3 : Byte) :
    (be32 b0 b1 b2 b3).toNat = b0.toNat * 2 ^ 24 + b1.toNat * 2 ^ 16 + b2.toNat * 2 ^ 8 + b3.toNat := by
  rw [be32, append_byte_toNat, append_byte_toNat, append_byte_toNat]
  omega

/-- R107: each byte is the Word divided by the byte's weight, modulo 256. -/
theorem bytes32_be32 (b0 b1 b2 b3 : Byte) : bytes32 (be32 b0 b1 b2 b3) = [b0, b1, b2, b3] := by
  have byte {lo : Nat} {b : Byte} (h : (be32 b0 b1 b2 b3).toNat / 2 ^ lo % 2 ^ 8 = b.toNat) :
      (be32 b0 b1 b2 b3).extractLsb' lo 8 = b :=
    BitVec.eq_of_toNat_eq (by rw [BitVec.extractLsb'_toNat, Nat.shiftRight_eq_div_pow, h])
  rw [be32_toNat] at byte
  rw [bytes32, byte (b := b0) (by omega), byte (b := b1) (by omega), byte (b := b2) (by omega),
    byte (b := b3) (by omega)]

theorem extractLsb'_extractLsb' {w : Nat} (x : BitVec w) {start len lo n : Nat} (h : lo + n ≤ len) :
    (x.extractLsb' start len).extractLsb' lo n = x.extractLsb' (start + lo) n := by
  apply BitVec.eq_of_getLsbD_eq
  intro i hi
  have inside : lo + i < len := by omega
  simp [inside, Nat.add_assoc]

/-- R108: the four bytes of the high Word come first, then those of the low one. -/
theorem be64_getElem? (n : BitVec 64) {j : Nat} (hj : j < 8) :
    (be64 n)[j]? = some (n.extractLsb' (56 - 8 * j) 8) := by
  by_cases high : j < 4
  · have place : 32 + (24 - 8 * j) = 56 - 8 * j := by omega
    rw [be64, List.getElem?_append_left (by simpa using high), bytes32_getElem? _ high,
      extractLsb'_extractLsb' _ (by omega), place]
  · have place : 0 + (24 - 8 * (j - 4)) = 56 - 8 * j := by omega
    rw [be64, List.getElem?_append_right (by rw [bytes32_length]; omega), bytes32_length,
      bytes32_getElem? _ (by omega), extractLsb'_extractLsb' _ (by omega), place]

/-- Settles O58: `be32` by its value, `bytes32` as its inverse, and each byte of `be64` by its place. -/
theorem bigEndianBytes : Obligations.BigEndianBytes :=
  ⟨fun b0 b1 b2 b3 => ⟨be32_toNat b0 b1 b2 b3, bytes32_be32 b0 b1 b2 b3⟩,
    fun n => ⟨be64_length n, fun _ => be64_getElem? n⟩⟩

end Sys2Proof.Machine

/-! SUPPORT. The family of 41_padder.md: the bytes PAD1 and PAD2 store, and what the padding function gives. -/

namespace Sys2Proof.Machine

/-! ### The padding micro-operations -/

/-- R124, R125: where the length follows `z` zero bytes, it ends `z + 8` bytes after their start. -/
theorem zeros_be64_getElem? (z : Nat) (n : BitVec 64) {j : Nat} (hj : j < z + 8) :
    (List.replicate z (0x00 : Byte) ++ be64 n)[j]? =
      some (if z ≤ j then n.extractLsb' (8 * (z + 7 - j)) 8 else 0x00) := by
  by_cases zero : j < z
  · rw [List.getElem?_append_left (by simpa using zero), if_neg (by omega)]
    simp [zero]
  · have place : 56 - 8 * (j - z) = 8 * (z + 7 - j) := by omega
    rw [List.getElem?_append_right (by simpa using zero), List.length_replicate, be64_getElem? n (by omega), place,
      if_pos (by omega)]

/-- The byte stored at address `i`, told by its place in the list. -/
theorem storeBytes_of_getElem? {start : Nat} {bytes : List Byte} {buf : Vector Byte 67} {i : Nat} {b : Byte}
    (h : i < 67) (le : start ≤ i) (place : bytes[i - start]? = some b) : (storeBytes start bytes buf)[i] = b := by
  obtain ⟨lt, rfl⟩ := List.getElem?_eq_some_iff.mp place
  simpa [Nat.add_sub_cancel' le] using storeBytes_inside (start := start) (buf := buf) lt (by omega)

/-- A store of 0x80 and what follows it, up to byte 63. -/
theorem storeBytes_marker {r : Nat} {rest : List Byte} {buf : Vector Byte 67} {f : Nat → Byte}
    (len : r + 1 + rest.length = 64) (place : ∀ i, r < i → i < 64 → rest[i - (r + 1)]? = some (f i)) (i : Nat)
    (hi : i < 67) :
    (storeBytes r (0x80 :: rest) buf)[i] = if i < r ∨ 64 ≤ i then buf[i] else if i = r then 0x80 else f i := by
  split_ifs with out marker
  · exact storeBytes_outside hi (by rw [List.length_cons]; omega)
  · exact storeBytes_of_getElem? hi marker.ge (by simp [marker])
  · have next : i - r = i - (r + 1) + 1 := by omega
    refine storeBytes_of_getElem? hi (by omega) ?_
    rw [next, List.getElem?_cons_succ]
    exact place i (by omega) (by omega)

theorem execPad1_short {s : State} (h : s.bufCnt.val ≤ 55) :
    execPad1 s = .next (padded true (storeBytes s.bufCnt.val
      (0x80 :: (List.replicate (55 - s.bufCnt.val) 0x00 ++ be64 s.bitLen)) s.buf) s) := if_pos h

theorem execPad1_long {s : State} (h : 55 < s.bufCnt.val) (h' : s.bufCnt.val ≤ 63) :
    execPad1 s = .next (padded false (storeBytes s.bufCnt.val
      (0x80 :: List.replicate (63 - s.bufCnt.val) 0x00) s.buf) s) :=
  (if_neg h.not_ge).trans (if_pos h')

theorem execPad1_fault {s : State} (h : 63 < s.bufCnt.val) : execPad1 s = .fault .padRemainderTooLong :=
  (if_neg (by omega)).trans (if_neg h.not_ge)

/-- Settles O11: after 0x80 a short remainder leaves room for zeros and the length, a long one for zeros only. -/
theorem padOneBuildsTheBlock : Obligations.PadOneBuildsTheBlock := by
  refine fun s => ⟨fun le => ?_, execPad1_fault⟩
  by_cases short : s.bufCnt.val ≤ 55
  · refine ⟨_, execPad1_short short, storeBytes_marker ?_ fun i above below => ?_, iff_of_true rfl short, rfl, rfl, rfl⟩
    · rw [List.length_append, List.length_replicate, be64_length]; omega
    · have place : 55 - s.bufCnt.val + 7 - (i - (s.bufCnt.val + 1)) = 63 - i := by omega
      have start : 55 - s.bufCnt.val ≤ i - (s.bufCnt.val + 1) ↔ s.bufCnt.val ≤ 55 ∧ 56 ≤ i := by omega
      simp only [zeros_be64_getElem? _ _ (show i - (s.bufCnt.val + 1) < 55 - s.bufCnt.val + 8 by omega), place, start]
  · refine ⟨_, execPad1_long (by omega) le, storeBytes_marker ?_ fun i above below => ?_, iff_of_false nofun short, rfl,
      rfl, rfl⟩
    · rw [List.length_replicate]; omega
    · rw [List.getElem?_replicate, if_pos (by omega), if_neg (by omega)]

/-- Settles O12: the 64 stored bytes are zeros and the length, from byte 0 on. -/
theorem padTwoBuildsTheLengthBlock : Obligations.PadTwoBuildsTheLengthBlock := by
  refine fun s => ⟨_, rfl, fun i hi => ?_, rfl, rfl, rfl, rfl⟩
  rw [padded_buf]
  by_cases out : 64 ≤ i
  · rw [if_pos out]
    exact storeBytes_outside hi (.inr (by rwa [List.length_append, List.length_replicate, be64_length]))
  · rw [if_neg out]
    exact storeBytes_of_getElem? hi (Nat.zero_le i) (zeros_be64_getElem? 56 s.bitLen (by omega))

/-! ### The padding function -/

/-- R120, R121: the byte stream of `pad(M)`. -/
theorem paddedBytes_eq (m : List Byte) : paddedBytes m =
    m ++ 0x80 :: (List.replicate ((55 + 64 - m.length % 64) % 64) 0x00 ++ be64 (BitVec.ofNat 64 (8 * m.length))) := by
  have len : (m ++ [(0x80 : Byte)]).length = m.length + 1 := List.length_append
  rw [paddedBytes, zeroFill_eq_append 63 (m ++ [0x80]) ((55 + 64 - m.length % 64) % 64) (by omega)
    (by rw [len]; omega) (fun k hk => by rw [len]; omega)]
  simp

/-- R121: whole blocks, as few as hold the message and 9 more bytes. -/
theorem paddedBytes_length (m : List Byte) : (paddedBytes m).length = 64 * ((m.length + 9 + 63) / 64) := by
  simp only [paddedBytes_eq, List.length_append, List.length_cons, List.length_replicate, be64_length]
  omega

theorem blocks_length (n : Nat) (s : List Byte) : (blocks n s).length = n := by
  simp [blocks]

theorem blockAt_toList {s : List Byte} {j : Nat} (h : 64 * (j + 1) ≤ s.length) :
    (blockAt s j).toList = (s.drop (64 * j)).take 64 := by
  apply List.ext_getElem
  · rw [Vector.length_toList, List.length_take, List.length_drop]; omega
  · intro i h₁ h₂
    have inside : 64 * j + i < s.length := by rw [Vector.length_toList] at h₁; omega
    simp [blockAt, inside]

/-- The blocks of a byte sequence, put together again, are its bytes. -/
theorem blocks_flatMap_toList {n : Nat} {s : List Byte} (h : 64 * n ≤ s.length) :
    (blocks n s).flatMap (fun b => b.toList) = s.take (64 * n) := by
  induction n with
  | zero => simp [blocks]
  | succ n ih =>
    have last : blocks (n + 1) s = blocks n s ++ [blockAt s n] := by
      rw [blocks, List.range_succ, List.map_append, List.map_singleton, blocks]
    rw [last, List.flatMap_append, ih (by omega), List.flatMap_singleton, blockAt_toList h, Nat.mul_succ, List.take_add]

/-- Settles O55: the padded bytes are a whole number of blocks, so the blocks hold all of them. -/
theorem paddingLengthAndContents : Obligations.PaddingLengthAndContents := by
  intro m
  have count : (paddedBytes m).length / 64 = (m.length + 9 + 63) / 64 := by rw [paddedBytes_length]; omega
  have whole : 64 * ((paddedBytes m).length / 64) = (paddedBytes m).length := by rw [count, paddedBytes_length]
  refine ⟨(blocks_length _ _).trans count, ?_⟩
  rw [pad, blocks_flatMap_toList whole.le, whole, List.take_length, paddedBytes_eq]

end Sys2Proof.Machine

/-! SUPPORT. The family of 42_scheduler.md: LOAD, the schedule word and the window of a round, and the rounds of a block
as an invariant under every interleaving of HOST and SEQ. -/

namespace Sys2Proof.Machine

/-! ### LOAD -/

/-- R133: the carried byte `j` is the one 64 places further on. -/
theorem carriedBytes_getElem? {s : State} {j : Nat} (hj : j < s.bufCnt.val - 64) (h : 64 + j < 67) :
    (carriedBytes s)[j]? = some s.buf[64 + j] := by
  have inside : 64 + j < s.bufCnt.val := by omega
  simp [carriedBytes, inside, h]

/-- R133: the Words that LOAD takes are those of the block in BUF. -/
theorem bufWord_eq_blockWord (buf : Vector Byte 67) : bufWord buf = blockWord (bufBlock buf) := by
  funext j
  simp [bufWord, blockWord, bufBlock]

theorem execLoad_of_whole_block {s : State} (h : 64 ≤ s.bufCnt.val) :
    execLoad s = .next { s with
      win := Vector.ofFn (bufWord s.buf), work := Work.ofCv s.cv, buf := storeBytes 0 (carriedBytes s) s.buf,
      bufCnt := Fin.ofNat 68 (s.bufCnt.val - 64), seq := Seq.round 0 } := if_neg h.not_gt

/-- Settles O13: the loaded Words by their values, and BUF as a store of the carried bytes from byte 0 on. -/
theorem loadTakesTheBlock : Obligations.LoadTakesTheBlock := by
  refine fun s => ⟨fun whole => ⟨_, execLoad_of_whole_block whole, fun j hj => ?_, rfl, fun j carried hj => ?_,
    fun i hi kept => ?_, ?_, rfl, rfl⟩, fun short => if_pos short⟩
  · simp only [Vector.getElem_ofFn, bufWord, be32_toNat]
  · exact storeBytes_of_getElem? (by omega) (Nat.zero_le j) (carriedBytes_getElem? carried hj)
  · exact storeBytes_outside hi (.inr (by rw [carriedBytes_length]; omega))
  · exact Nat.mod_eq_of_lt (by omega)

/-! ### The round -/

/-- R134: the slot `t mod 16` takes the schedule word from t = 16 on, every other slot is kept. -/
theorem winAfter_getElem (t : BitVec 6) (win : Vector Word 16) (j : Nat) (hj : j < 16) :
    (winAfter t win)[j] = if 16 ≤ t.toNat ∧ j = t.toNat % 16 then schedw t win else win[j] := by
  unfold winAfter
  by_cases early : t.toNat < 16
  · rw [if_pos early, if_neg (by omega)]
  · simp [early, Vector.getElem_set, not_lt.mp early, eq_comm]

theorem round_succ_toNat {t : BitVec 6} (h : t.toNat < 63) : (t + 1).toNat = t.toNat + 1 :=
  BitVec.toNat_add_of_lt (by simp; omega)

/-- Settles O14: `w`, `x` and `y` are the schedule word, T1 and T2; the slot written and the successor by cases on t. -/
theorem roundStepsTheWorkingRegisters : Obligations.RoundStepsTheWorkingRegisters := by
  rintro t s w x y word rfl rfl
  obtain rfl : w = schedw t s.win := word
  refine ⟨_, rfl, rfl, winAfter_getElem t s.win, ?_, rfl⟩
  by_cases more : t.toNat < 63
  · simp only [if_pos more, round_toNat, round_succ_toNat more]
  · exact (congrArg BitVec.toNat (if_neg more)).trans (if_neg more).symm

/-! ### The schedule of a block -/

theorem expandTo_length (b : Block) (n : Nat) : (expandTo b n).length = n + 16 := by
  induction n with
  | zero => rfl
  | succ n ih => rw [expandTo, List.length_append, ih, List.length_singleton, Nat.add_right_comm]

/-- R132: a Word, once appended, stays. -/
theorem expandTo_getD_of_le (b : Block) {m n i : Nat} (le : m ≤ n) (hi : i < m + 16) :
    (expandTo b n).getD i 0 = (expandTo b m).getD i 0 := by
  induction n, le using Nat.le_induction with
  | base => rfl
  | succ n le ih => rw [expandTo, List.getD_append _ _ _ _ (by rw [expandTo_length]; omega), ih]

theorem expand_getD_of_lt (b : Block) (j : Fin 16) : (expand b).getD j.val 0 = blockWord b j := by
  rw [expand, expandTo_getD_of_le b (Nat.zero_le 48) (by omega), expandTo]
  simp

/-- R132's recurrence, on the whole schedule. -/
theorem expand_getD_add (b : Block) {m : Nat} (hm : m < 48) :
    (expand b).getD (m + 16) 0 = scheduleWord ((expand b).getD (m + 14) 0) ((expand b).getD (m + 9) 0)
      ((expand b).getD (m + 1) 0) ((expand b).getD m 0) := by
  have earlier {i : Nat} (hi : i < m + 16) : (expandTo b m).getD i 0 = (expand b).getD i 0 :=
    (expandTo_getD_of_le b hm.le hi).symm
  have appended : (expand b).getD (m + 16) 0 = (expandTo b (m + 1)).getD (m + 16) 0 :=
    expandTo_getD_of_le b hm (by omega)
  rw [appended, expandTo, List.getD_append_right _ _ _ _ (expandTo_length b m).le, expandTo_length, Nat.sub_self,
    List.getD_cons_zero, earlier (by omega), earlier (by omega), earlier (by omega), earlier (by omega)]

/-! ### The window -/

/-- R135: WIN holds the Words of the schedule of `b` that are latest before round `n`, the block's own up to n = 16. -/
def HoldsLatest (b : Block) (n : Nat) (win : Vector Word 16) : Prop :=
  ∀ k, k < 16 → winAt win (n - 16 + k) = (expand b).getD (n - 16 + k) 0

theorem HoldsLatest.winAt_eq {b : Block} {n i : Nat} {win : Vector Word 16} (h : HoldsLatest b n win)
    (lo : n - 16 ≤ i) (hi : i < n - 16 + 16) : winAt win i = (expand b).getD i 0 := by
  simpa [Nat.add_sub_cancel' lo] using h (i - (n - 16)) (by omega)

theorem holdsLatest_load (buf : Vector Byte 67) :
    HoldsLatest (bufBlock buf) 0 (Vector.ofFn (bufWord buf)) := by
  intro k hk
  rw [Nat.zero_sub, Nat.zero_add, expand_getD_of_lt _ ⟨k, hk⟩, bufWord_eq_blockWord]
  simp [winAt, Nat.mod_eq_of_lt hk]

/-- R135: the schedule word of a round is the schedule's, by the recurrence from round 16 on. -/
theorem HoldsLatest.schedw_eq {b : Block} {n : BitVec 6} {win : Vector Word 16} (h : HoldsLatest b n.toNat win) :
    schedw n win = (expand b).getD n.toNat 0 := by
  have lt := n.isLt
  by_cases early : n.toNat < 16
  · exact (if_pos early).trans (h.winAt_eq (by omega) (by omega))
  · obtain ⟨m, hm⟩ := Nat.exists_eq_add_of_le' (not_lt.mp early)
    have late : schedw n win = scheduleWord (winAt win (n.toNat - 2)) (winAt win (n.toNat - 7))
        (winAt win (n.toNat - 15)) (winAt win (n.toNat - 16)) := if_neg early
    rw [late, h.winAt_eq (by omega) (by omega), h.winAt_eq (by omega) (by omega), h.winAt_eq (by omega) (by omega),
      h.winAt_eq (by omega) (by omega), hm]
    exact (expand_getD_add b (by omega)).symm

/-- A slot of the window after a round. -/
theorem winAt_winAfter (n : BitVec 6) (win : Vector Word 16) (i : Nat) :
    winAt (winAfter n win) i = if 16 ≤ n.toNat ∧ i % 16 = n.toNat % 16 then schedw n win else winAt win i :=
  winAfter_getElem n win (i % 16) (Nat.mod_lt i (by decide))

/-- R135: a round from 16 on replaces the Word that is no longer among the latest sixteen. -/
theorem holdsLatest_winAfter {b : Block} {n : BitVec 6} {win : Vector Word 16} (h : HoldsLatest b n.toNat win) :
    HoldsLatest b (n.toNat + 1) (winAfter n win) := by
  intro k hk
  rw [winAt_winAfter]
  split_ifs with new
  · have latest : n.toNat + 1 - 16 + k = n.toNat := by omega
    rw [h.schedw_eq, latest]
  · exact h.winAt_eq (by omega) (by omega)

/-! ### HOST's steps during the rounds -/

/-- The two states agree in all that the rounds of a block are about. -/
def State.SameRounds (s t : State) : Prop :=
  t.phase = s.phase ∧ t.seq = s.seq ∧ t.cv = s.cv ∧ t.work = s.work ∧ t.win = s.win

theorem State.InRounds.of_sameRounds {b : Block} {n : BitVec 6} {s t : State} (h : s.InRounds b n)
    (same : s.SameRounds t) : t.InRounds b n := by
  obtain ⟨phase, seq, cv, work, win⟩ := same
  rw [State.InRounds, phase, seq, cv, work, win]
  exact h

/-- A rejected command keeps the rounds, unless its error is LENOVF (R191). -/
theorem raise_sameRounds {e : ErrCode} (h : e ≠ .lenovf) (s : State) : s.SameRounds (raise e s) :=
  ⟨if_neg h, rfl, rfl, rfl, rfl⟩

/-- While BUSY, no command but INIT touches the rounds (R163, R193). -/
theorem command_of_busy {v : Word} {s t : State} (busy : Phase.isBusy s.phase) (h : command v s = .next t) :
    v = 1 ∨ s.SameRounds t := by
  obtain ⟨i, code, e⟩ | ⟨-, -, e⟩ := command_cases v s <;> rw [e] at h
  · obtain ⟨-, rfl⟩ | ⟨one, -⟩ | ⟨nb, le, -, rfl⟩ | ⟨-, rfl⟩ := decode_cmd_ok code
    · cases h; exact .inr ⟨rfl, rfl, rfl, rfl, rfl⟩
    · exact .inl one
    · have rejected : exec (.update nb) s = .next (raise .busycmd s) := (if_pos le).trans (whenReady_of_busy busy)
      cases rejected.symm.trans h
      exact .inr (raise_sameRounds (by decide) s)
    · have rejected : exec .finalize s = .next (raise .busycmd s) := whenReady_of_busy busy
      cases rejected.symm.trans h
      exact .inr (raise_sameRounds (by decide) s)
  · cases h; exact .inr (raise_sameRounds (by decide) s)

theorem memWrite_of_busy {off : BitVec 6} {v : Word} {s t : State} (busy : Phase.isBusy s.phase)
    (h : memWrite off v s = .next t) : (v = 1 ∧ WinReg.ofOffset off = .cmd) ∨ s.SameRounds t := by
  obtain ⟨cmd, e⟩ | ⟨-, e⟩ | ⟨-, e⟩ | ⟨-, -, -, e⟩ := writeReg_cases (WinReg.ofOffset off) v s <;>
    rw [memWrite, e] at h
  · exact (command_of_busy busy h).imp_left fun one => ⟨one, cmd⟩
  all_goals cases h; exact .inr ⟨rfl, rfl, rfl, rfl, rfl⟩

/-- While BUSY, no access of HOST but the write of INIT touches the rounds. -/
theorem hostTurn_of_busy {s t : State} (busy : Phase.isBusy s.phase) (h : hostTurn s = .next t) :
    (∃ off rest, s.host = .write off 1 :: rest ∧ WinReg.ofOffset off = .cmd) ∨ s.SameRounds t := by
  obtain ⟨-, e⟩ | ⟨_, _, -, e⟩ | ⟨off, v, rest, op, e⟩ | ⟨_, -, -, e⟩ | ⟨_, -, -, e⟩ := hostTurn_cases s <;>
    rw [e] at h
  case inr.inr.inl =>
    obtain ⟨rfl, cmd⟩ | same := memWrite_of_busy (s := { s with host := rest }) busy h
    · exact .inl ⟨off, rest, op, cmd⟩
    · exact .inr same
  all_goals cases h; exact .inr ⟨rfl, rfl, rfl, rfl, rfl⟩

/-! ### SEQ's steps during the rounds -/

theorem step_host_next {s t : State} (turn : nextTurn s = .host) (h : step s = .next t) :
    hostTurn (beginStep s) = .next t := by
  obtain ⟨other, -⟩ | ⟨-, -, e⟩ | ⟨other, -⟩ | ⟨-, -, f, -, e⟩ := step_cases s
  · cases turn.symm.trans other
  · exact e.symm.trans h
  · cases turn.symm.trans other
  · cases e.symm.trans h

/-- R172: a next state of SEQ's step is one of the micro-operation that SEQ names. -/
theorem step_seq_next {s t : State} {i : Instr} (turn : nextTurn s = .seq) (code : decode (.seq s.seq) = .ok i)
    (h : step s = .next t) : exec i (beginStep s) = .next t := by
  have named : seqTurn (beginStep s) = exec i (beginStep s) := by rw [seqTurn, beginStep_seq, code]
  obtain ⟨other, -⟩ | ⟨other, -⟩ | ⟨-, -, e⟩ | ⟨-, -, f, -, e⟩ := step_cases s
  · cases turn.symm.trans other
  · cases turn.symm.trans other
  · exact named.symm.trans (e.symm.trans h)
  · cases e.symm.trans h

/-- R149: ROUND(n) makes the registers of n rounds those of n + 1. -/
theorem State.InRounds.roundStep_eq {b : Block} {n : BitVec 6} {s : State} (h : s.InRounds b n) :
    roundStep s.work (schedw n s.win) (roundConstant n) =
      rounds (expand b) (n.toNat + 1) (Work.ofCv s.cv) := by
  obtain ⟨-, -, work, win⟩ := h
  rw [HoldsLatest.schedw_eq win, work, rounds, BitVec.ofNat_toNat, BitVec.setWidth_eq]

/-- SEQ's step in the rounds is ROUND(n). -/
theorem State.InRounds.step_seq {b : Block} {n : BitVec 6} {s t : State} (h : s.InRounds b n)
    (turn : nextTurn s = .seq) (next : step s = .next t) : execRound n (beginStep s) = .next t := by
  obtain ⟨-, code, -⟩ := h
  exact step_seq_next turn (by rw [code, decode_seq_round]) next

theorem step_load_inRounds {s t : State} (busy : Phase.isBusy s.phase) (code : s.seq = Seq.load)
    (turn : nextTurn s = .seq) (h : step s = .next t) : t.InRounds (bufBlock s.buf) 0 := by
  obtain ⟨-, rfl⟩ := execLoad_next (step_seq_next (i := .load) turn (by rw [code]; rfl) h)
  exact ⟨busy, rfl, rfl, holdsLatest_load s.buf⟩

theorem State.InRounds.step_succ {b : Block} {n : BitVec 6} {s t : State} (h : s.InRounds b n)
    (turn : nextTurn s = .seq) (next : step s = .next t) (more : n.toNat < 63) : t.InRounds b (n + 1) := by
  have ⟨busy, _, _, win⟩ := h
  cases h.step_seq turn next
  refine ⟨busy, if_pos more, ?_, ?_⟩ <;> rw [round_succ_toNat more]
  · exact h.roundStep_eq
  · exact holdsLatest_winAfter win

theorem State.InRounds.step_last {b : Block} {n : BitVec 6} {s t : State} (h : s.InRounds b n)
    (turn : nextTurn s = .seq) (next : step s = .next t) (last : n.toNat = 63) :
    t.seq = Seq.feed ∧ t.work = rounds (expand b) 64 (Work.ofCv t.cv) := by
  have work := h.roundStep_eq
  rw [last] at work
  cases h.step_seq turn next
  exact ⟨if_neg last.not_lt, work⟩

/-- Settles O48: LOAD enters the rounds, HOST's accesses but INIT keep them, and SEQ's steps go through them. -/
theorem windowScheduleIsTheExpansion : Obligations.WindowScheduleIsTheExpansion := by
  refine ⟨fun s t => step_load_inRounds, fun s t b n h next => ⟨?_, fun turn => ?_, fun turn => ?_, fun turn => ?_⟩⟩
  · obtain ⟨-, -, -, win⟩ := h
    exact HoldsLatest.schedw_eq win
  · have ⟨busy, _⟩ := h
    exact (hostTurn_of_busy (s := beginStep s) busy (step_host_next turn next)).imp
      (fun init => ⟨turn, init⟩) h.of_sameRounds
  · exact h.step_succ turn next
  · exact h.step_last turn next

end Sys2Proof.Machine

/-! SUPPORT. The family of 43_compression.md: Ch and Maj bit by bit, and the tables K and IV as roots of the primes. -/

namespace Sys2Proof.Machine

/-! ### Choice and majority -/

/-- R142: of the two ANDs that Ch joins, bit `i` of `x` leaves one and clears the other. -/
theorem ch_getLsbD (x y z : Word) {i : Nat} (hi : i < 32) :
    (ch x y z).getLsbD i = if x.getLsbD i then y.getLsbD i else z.getLsbD i := by
  rw [ch, BitVec.getLsbD_xor, BitVec.getLsbD_and, BitVec.getLsbD_and, BitVec.getLsbD_not]
  cases x.getLsbD i with
  | true => simp
  | false => simp [hi]

/-- R143: the XOR of the three pairwise ANDs, over the eight values the three bits can have. -/
theorem maj_getLsbD (x y z : Word) (i : Nat) :
    (maj x y z).getLsbD i = true ↔ 2 ≤ (x.getLsbD i).toNat + (y.getLsbD i).toNat + (z.getLsbD i).toNat := by
  rw [maj, BitVec.getLsbD_xor, BitVec.getLsbD_xor, BitVec.getLsbD_and, BitVec.getLsbD_and, BitVec.getLsbD_and]
  generalize x.getLsbD i = a, y.getLsbD i = b, z.getLsbD i = c
  revert a b c
  decide

/-- Settles O57: Ch and Maj are bitwise, so each is the function of three bits at every place. -/
theorem chooseAndMajorityByBits : Obligations.ChooseAndMajorityByBits :=
  fun x y z i hi => ⟨ch_getLsbD x y z hi, maj_getLsbD x y z i⟩

/-! ### The tables -/

/-- Trial division: a number below 18² that is not prime has a divisor below 18 other than 1 and itself. -/
theorem prime_iff_trialDivision {n : Nat} (small : n < 18 ^ 2) :
    n.Prime ↔ 2 ≤ n ∧ ∀ d < 18, 2 ≤ d → d ∣ n → d = n := by
  refine ⟨fun prime => ⟨prime.two_le, fun d _ two dvd => ?_⟩,
    fun ⟨two, only⟩ => Nat.prime_def_le_sqrt.mpr ⟨two, fun d hd le dvd => ?_⟩⟩
  · exact (prime.eq_one_or_self_of_dvd d dvd).resolve_left (by omega)
  · have low : d < 18 := le.trans_lt (Nat.sqrt_lt'.mpr small)
    have self : d = n := only d low hd dvd
    exact (Nat.sqrt_lt_self two).not_ge (self ▸ le)

theorem primesTo311_eq : primesTo311 =
    [2, 3, 5, 7, 11, 13, 17, 19, 23, 29, 31, 37, 41, 43, 47, 53, 59, 61, 67, 71, 73, 79, 83, 89, 97, 101, 103, 107, 109,
      113, 127, 131, 137, 139, 149, 151, 157, 163, 167, 173, 179, 181, 191, 193, 197, 199, 211, 223, 227, 229, 233, 239,
      241, 251, 257, 263, 269, 271, 277, 281, 283, 293, 307, 311] := by
  have trial : primesTo311 = (List.range 312).filter fun n => decide (2 ≤ n ∧ ∀ d < 18, 2 ≤ d → d ∣ n → d = n) :=
    List.filter_congr fun n hn =>
      decide_eq_decide.mpr (prime_iff_trialDivision ((List.mem_range.mp hn).trans (by decide)))
  rw [trial]
  decide

/-- R146: the cube root, scaled by 2^32, of a prime scaled by 2^96. -/
theorem kTable_eq_cubeRoot :
    ∀ t : Fin 64, Nat.nthRoot 3 (primesTo311.getD t.val 0 * 2 ^ 96) % 2 ^ 32 = kTable[t].toNat := by
  rw [primesTo311_eq]
  decide

/-- R160: the square root, scaled by 2^32, of a prime scaled by 2^64. -/
theorem iv_eq_squareRoot :
    ∀ i : Fin 8, Nat.nthRoot 2 (primesTo311.getD i.val 0 * 2 ^ 64) % 2 ^ 32 = iv[i].toNat := by
  rw [primesTo311_eq]
  decide

theorem exists_floorRoot {n a w : Nat} (hn : n ≠ 0) (root : Nat.nthRoot n a % 2 ^ 32 = w) :
    ∃ c, c % 2 ^ 32 = w ∧ c ^ n ≤ a ∧ a < (c + 1) ^ n :=
  ⟨_, root, Nat.pow_nthRoot_le (.inl hn), Nat.lt_pow_nthRoot_add_one hn a⟩

/-- Settles O59: the primes by trial division, and each entry as the `Nat.nthRoot` of its prime. -/
theorem tablesAreRootsOfPrimes : Obligations.TablesAreRootsOfPrimes :=
  ⟨congrArg List.length primesTo311_eq, fun t => exists_floorRoot three_ne_zero (kTable_eq_cubeRoot t),
    fun i => exists_floorRoot two_ne_zero (iv_eq_squareRoot i)⟩

end Sys2Proof.Machine

/-! SUPPORT. The family of 44_hasher.md: NOP's word, the state after an accepted UPDATE, and FEED by its phase. -/

namespace Sys2Proof.Machine

/-! ### NOP -/

/-- R163: a word that decodes runs its instruction. -/
theorem command_of_decode {v : Word} {i : Instr} (h : decode (.cmd v) = .ok i) (s : State) :
    command v s = exec i s := by
  rw [command, h]

/-- Settles O2: the word decodes to NOP, whose meaning is the identity. -/
theorem nopChangesNothing : Obligations.NopChangesNothing := by
  intro s
  have nop : exec .nop s = .next s := rfl
  have word : decode (.cmd 0x00000000) = .ok .nop := by decide
  exact ⟨nop, (command_of_decode word s).trans nop⟩

/-! ### UPDATE -/

/-- R165: UPDATE in READY, below the length bound and with room in BUF. -/
theorem execUpdate_accepted {nb : BitVec 3} {s : State} (ready : s.phase = Phase.ready) (le : nb.toNat ≤ 4)
    (fits : s.bufCnt.val + nb.toNat ≤ 67) (len : s.bitLen.toNat + 8 * nb.toNat < 2 ^ 64) :
    execUpdate nb s = .next (absorbed nb s) :=
  calc execUpdate nb s
    _ = whenReady (absorb nb) s := if_pos le
    _ = absorb nb s := whenReady_of_ready ready
    _ = .next (absorbed nb s) := (if_neg len.not_ge).trans (if_neg fits.not_gt)

/-- R84: byte `k` of DIN is stored at BUFCNT + k. -/
theorem absorbed_buf_inside {nb : BitVec 3} {s : State} {k : Nat} (hk : k < nb.toNat) (h : s.bufCnt.val + k < 67) :
    (absorbed nb s).buf[s.bufCnt.val + k] = dinByte s.din k :=
  (storeBytes_inside (by rwa [dinBytes_length]) h).trans (dinBytes_getElem nb s.din k _)

theorem absorbed_buf_outside {nb : BitVec 3} {s : State} {i : Nat} (h : i < 67)
    (out : i < s.bufCnt.val ∨ s.bufCnt.val + nb.toNat ≤ i) : (absorbed nb s).buf[i] = s.buf[i] :=
  storeBytes_outside h (by rwa [dinBytes_length])

theorem absorbed_bufCnt_val {nb : BitVec 3} {s : State} (fits : s.bufCnt.val + nb.toNat ≤ 67) :
    (absorbed nb s).bufCnt.val = s.bufCnt.val + nb.toNat := Nat.mod_eq_of_lt (Nat.lt_succ_of_le fits)

theorem absorbed_bitLen_toNat {nb : BitVec 3} {s : State} (len : s.bitLen.toNat + 8 * nb.toNat < 2 ^ 64) :
    (absorbed nb s).bitLen.toNat = s.bitLen.toNat + 8 * nb.toNat := by
  rw [absorbed_bitLen, BitVec.toNat_add, BitVec.toNat_ofNat, Nat.add_mod_mod, Nat.mod_eq_of_lt len]

/-- Settles O3: BUF is a store of DIN's bytes from BUFCNT on, and neither counter wraps. -/
theorem updateAbsorbsDinBytesInOrder : Obligations.UpdateAbsorbsDinBytesInOrder := by
  intro s nb ready le fits len
  refine ⟨absorbed nb s, execUpdate_accepted ready le fits len, fun k => absorbed_buf_inside,
    fun i => absorbed_buf_outside, absorbed_bufCnt_val fits, absorbed_bitLen_toNat len, fun full => ?_, fun room => ?_,
    rfl⟩
  · exact ⟨if_pos full, if_pos full⟩
  · exact ⟨if_neg room.not_ge, if_neg room.not_ge⟩

/-! ### FEED -/

theorem execFeed_of_block {s : State} (h : s.phase = Phase.block) : execFeed s =
    .next { s with cv := feedForward s.cv s.work, phase := Phase.ready, seq := Seq.idle } := if_pos h

theorem execFeed_of_final {s : State} (h : s.phase = Phase.final) : execFeed s =
    .next { s with cv := feedForward s.cv s.work, seq := if s.last then Seq.ser else Seq.pad2 } :=
  (if_neg (by rw [h]; decide)).trans (if_pos h)

theorem execFeed_fault {s : State} (block : s.phase ≠ Phase.block) (final : s.phase ≠ Phase.final) :
    execFeed s = .fault .feedOutsideBlock := (if_neg block).trans (if_neg final)

/-- Settles O15: the next state in BLOCK and in FINAL, which are different phases, and the fault elsewhere. -/
theorem feedAddsTheWorkingRegisters : Obligations.FeedAddsTheWorkingRegisters := by
  refine fun s => ⟨?_, execFeed_fault⟩
  rintro (block | final)
  · have other : s.phase ≠ Phase.final := by rw [block]; decide
    exact ⟨_, execFeed_of_block block, rfl, fun _ => ⟨rfl, rfl⟩, fun h => absurd h other, rfl⟩
  · have other : s.phase ≠ Phase.block := by rw [final]; decide
    exact ⟨_, execFeed_of_final final, rfl, fun h => absurd h other,
      fun _ => ⟨final, fun last => if_pos last, fun more => if_neg (Bool.eq_false_iff.mp more)⟩, rfl⟩

end Sys2Proof.Machine

/-! SUPPORT. The family of 60_exceptions.md: what a word written to CMD does by its fields, the phase checks of UPDATE and
FINALIZE, the length bound, and the one error of each rejected command. -/

namespace Sys2Proof.Machine

/-! ### A word written to CMD -/

/-- R81: the command named by OP = 0x0..0x3 and NB; a legal word has no other OP (R83). -/
def namedCommand (op : BitVec 4) (nb : BitVec 3) : Instr :=
  if op = 0x0 then .nop else if op = 0x1 then .init else if op = 0x2 then .update nb else .finalize

theorem decode_eq_namedCommand {v : Word} (isLegal : legal v = true) :
    decode (.cmd v) = .ok (namedCommand (opField v) (nbField v)) := by
  obtain ⟨i, dec⟩ := decode_of_legal isLegal
  rw [dec]
  obtain ⟨rfl, rfl⟩ | ⟨rfl, rfl⟩ | ⟨nb, -, rfl, rfl⟩ | ⟨rfl, rfl⟩ := decode_cmd_ok dec
  · rfl
  · rfl
  · clear dec isLegal
    revert nb
    decide
  · rfl

/-- R163: a legal word runs the command its OP names. -/
theorem command_of_op {v : Word} (isLegal : legal v = true) {op : BitVec 4} (hop : opField v = op) (s : State) :
    command v s = exec (namedCommand op (nbField v)) s :=
  hop ▸ command_of_decode (decode_eq_namedCommand isLegal) s

/-- R192: a word that fails R83's predicate does not decode. -/
theorem command_of_illegal {v : Word} (illegal : legal v = false) (s : State) :
    command v s = .next (raise .illcmd s) := by
  obtain ⟨i, dec, -⟩ | ⟨-, -, e⟩ := command_cases v s
  · rw [legal_of_mem_legalWords v (mem_legalWords_of_decode dec)] at illegal
    cases illegal
  · exact e

/-! ### UPDATE and FINALIZE by phase -/

theorem exec_update_eq {nb : BitVec 3} (le : nb.toNat ≤ 4) (s : State) :
    exec (.update nb) s = whenReady (absorb nb) s := if_pos le

theorem exec_finalize_eq (s : State) : exec .finalize s = whenReady startFinal s := rfl

/-- R83: a legal UPDATE takes at most four bytes. -/
theorem nb_le_of_legal {v : Word} (isLegal : legal v = true) (op : opField v = 2) : (nbField v).toNat ≤ 4 := by
  obtain ⟨-, nb⟩ : v &&& reservedMask = 0 ∧ (nbField v).toNat ≤ 4 := by simpa [legal, op] using isLegal
  exact nb

theorem command_update {v : Word} (isLegal : legal v = true) (op : opField v = 2) (s : State) :
    command v s = whenReady (absorb (nbField v)) s :=
  (command_of_op isLegal op s).trans (exec_update_eq (nb_le_of_legal isLegal op) s)

theorem command_finalize {v : Word} (isLegal : legal v = true) (op : opField v = 3) (s : State) :
    command v s = whenReady startFinal s :=
  (command_of_op isLegal op s).trans (exec_finalize_eq s)

/-- R163: the words of UPDATE and of FINALIZE pass the same phase checks. -/
theorem command_checks_phase {v : Word} (isLegal : legal v = true) (op : opField v = 2 ∨ opField v = 3) (s : State) :
    ∃ accepted, command v s = whenReady accepted s :=
  op.elim (fun update => ⟨_, command_update isLegal update s⟩) (fun finalize => ⟨_, command_finalize isLegal finalize s⟩)

/-- R193. -/
theorem command_of_busy_phase {v : Word} {s : State} (isLegal : legal v = true)
    (op : opField v = 2 ∨ opField v = 3) (busy : Phase.isBusy s.phase) : command v s = .next (raise .busycmd s) := by
  obtain ⟨_, checked⟩ := command_checks_phase isLegal op s
  exact checked.trans (whenReady_of_busy busy)

/-- R194. -/
theorem command_of_finished_phase {v : Word} {s : State} (isLegal : legal v = true)
    (op : opField v = 2 ∨ opField v = 3) (finished : s.phase = Phase.done ∨ s.phase = Phase.failed) :
    command v s = .next (raise .invstate s) := by
  obtain ⟨_, checked⟩ := command_checks_phase isLegal op s
  exact checked.trans (whenReady_of_finished finished)

theorem command_update_of_ready {v : Word} {s : State} (isLegal : legal v = true) (op : opField v = 2)
    (ready : s.phase = Phase.ready) : command v s = absorb (nbField v) s :=
  (command_update isLegal op s).trans (whenReady_of_ready ready)

theorem command_finalize_of_ready {v : Word} {s : State} (isLegal : legal v = true) (op : opField v = 3)
    (ready : s.phase = Phase.ready) : command v s = startFinal s :=
  (command_finalize isLegal op s).trans (whenReady_of_ready ready)

/-! ### The length bound -/

/-- R195. -/
theorem absorb_past_bound {nb : BitVec 3} {s : State} (past : 2 ^ 64 ≤ s.bitLen.toNat + 8 * nb.toNat) :
    absorb nb s = .next (raise .lenovf s) := if_pos past

/-- Every UPDATE below the length bound that has a next state leaves ERR. -/
theorem absorb_keeps_err {nb : BitVec 3} {s t : State} (below : s.bitLen.toNat + 8 * nb.toNat < 2 ^ 64)
    (h : absorb nb s = .next t) : t.err = s.err := by
  obtain ⟨past, -⟩ | ⟨-, -, e⟩ | ⟨-, -, e⟩ := absorb_cases nb s
  · exact absurd below past.not_gt
  · cases e.symm.trans h
  · cases e.symm.trans h
    exact absorbed_err nb s

theorem storeBytes_nil (start : Nat) (buf : Vector Byte 67) : storeBytes start [] buf = buf :=
  Vector.ext fun _ hi => storeBytes_outside hi (Nat.lt_or_ge _ _)

/-- UPDATE 0 stores no byte and adds 0 to both counters. -/
theorem absorbed_zero {s : State} (room : s.bufCnt.val ≤ 63) : absorbed 0 s = s := by
  have noBlock : ¬ 64 ≤ s.bufCnt.val + (0 : BitVec 3).toNat := Nat.not_le_of_lt (Nat.lt_succ_of_le room)
  have buf : storeBytes s.bufCnt.val (dinBytes 0 s.din) s.buf = s.buf := storeBytes_nil _ _
  have bufCnt : Fin.ofNat 68 (s.bufCnt.val + (0 : BitVec 3).toNat) = s.bufCnt :=
    Fin.ext (Nat.mod_eq_of_lt s.bufCnt.isLt)
  have bitLen : s.bitLen + BitVec.ofNat 64 (8 * (0 : BitVec 3).toNat) = s.bitLen := BitVec.add_zero s.bitLen
  rw [absorbed, if_neg noBlock, if_neg noBlock, buf, bufCnt, bitLen]

/-! ### The statements -/

/-- Settles O8: an illegal word does not decode; a legal one runs the command its OP names, UPDATE and FINALIZE after
the phase checks. -/
theorem commandDispatchChecksInOrder : Obligations.CommandDispatchChecksInOrder := fun _ s =>
  ⟨fun illegal => command_of_illegal illegal s,
    fun isLegal nop => command_of_op isLegal nop s,
    fun isLegal init => command_of_op isLegal init s,
    fun isLegal op => ⟨command_of_busy_phase isLegal op, command_of_finished_phase isLegal op⟩,
    command_update_of_ready, command_finalize_of_ready⟩

/-- Settles O9: the raise of each rejection, then the accepted commands, whose next states leave ERR, then the record
that each `raise` is. -/
theorem errorsArePreciseAndSingle : Obligations.ErrorsArePreciseAndSingle := by
  refine ⟨fun v s illegal => command_of_illegal illegal s, fun v s isLegal op => ?_, fun v s t isLegal h => ?_,
    fun e s => ?_⟩
  · exact ⟨command_of_busy_phase isLegal op, command_of_finished_phase isLegal op, fun ready update past =>
      (command_update_of_ready isLegal update ready).trans (absorb_past_bound past)⟩
  · rintro (nop | ⟨ready, finalize⟩ | ⟨ready, update, below⟩)
    · cases (command_of_op isLegal nop s).symm.trans h
      rfl
    · cases (command_finalize_of_ready isLegal finalize ready).symm.trans h
      rfl
    · exact absorb_keeps_err below ((command_update_of_ready isLegal update ready).symm.trans h)
  · cases e <;> rfl

/-- Settles O4: past the bound READY's UPDATE is the raise of LENOVF; UPDATE 0 is accepted and absorbs nothing. -/
theorem updatePastTheLengthBoundFails : Obligations.UpdatePastTheLengthBoundFails := by
  refine ⟨fun s nb ready le past => ?_, fun s ready room => ?_⟩
  · calc exec (.update nb) s
      _ = whenReady (absorb nb) s := exec_update_eq le s
      _ = absorb nb s := whenReady_of_ready ready
      _ = .next (raise .lenovf s) := absorb_past_bound past
  · have accepted : exec (.update 0) s = .next (absorbed 0 s) :=
      execUpdate_accepted ready (Nat.zero_le 4) (room.trans (by decide)) s.bitLen.isLt
    rw [accepted, absorbed_zero room]

/-- Settles O5: both commands are stopped by the check for BUSY. -/
theorem commandsWhileBusyAreDropped : Obligations.CommandsWhileBusyAreDropped := fun s busy =>
  ⟨fun _ le => (exec_update_eq le s).trans (whenReady_of_busy busy),
    (exec_finalize_eq s).trans (whenReady_of_busy busy)⟩

/-- Settles O6: both commands are stopped by the check for DONE and FAILED. -/
theorem commandsAfterTheEndAreInvalid : Obligations.CommandsAfterTheEndAreInvalid := fun s finished =>
  ⟨fun _ le => (exec_update_eq le s).trans (whenReady_of_finished finished),
    (exec_finalize_eq s).trans (whenReady_of_finished finished)⟩

end Sys2Proof.Machine

/-! SUPPORT. The family of what every step does: one constructor per outcome of a command, of an access of HOST and of a
micro-operation, and from them what a step leaves unchanged. -/

namespace Sys2Proof.Machine

/-! ### The codes -/

theorem round_eq_or (t : BitVec 6) : Seq.round t = 0x40 ||| t.setWidth 8 := by
  revert t; decide

theorem decode_encode {i : Instr} (wf : i.wf = true) : decode (encode i) = .ok i := by
  cases i with
  | update nb => revert nb; decide
  | round t => rw [encode, ← round_eq_or, decode_seq_round]
  | _ => rfl

theorem wf_and_encode_of_decode {c : Code} {i : Instr} (h : decode c = .ok i) : i.wf = true ∧ encode i = c := by
  cases c with
  | cmd v =>
    obtain ⟨rfl, rfl⟩ | ⟨rfl, rfl⟩ | ⟨nb, le, rfl, rfl⟩ | ⟨rfl, rfl⟩ := decode_cmd_ok h
    case inr.inr.inl => exact ⟨decide_eq_true le, rfl⟩
    all_goals exact ⟨rfl, rfl⟩
  | seq q =>
    obtain ⟨rfl, rfl⟩ | ⟨rfl, rfl⟩ | ⟨rfl, rfl⟩ | ⟨rfl, rfl⟩ | ⟨rfl, rfl⟩ | ⟨rfl, rfl⟩ | ⟨t, rfl, rfl⟩ :=
      decode_seq_ok h
    case inr.inr.inr.inr.inr.inr => exact ⟨rfl, congrArg Code.seq (round_eq_or t).symm⟩
    all_goals exact ⟨rfl, rfl⟩

/-- Settles O29: encoding then decoding by the instruction, decoding then encoding by the code. -/
theorem codesAndInstructionsCorrespond : Obligations.CodesAndInstructionsCorrespond :=
  ⟨fun _ => decode_encode, fun _ _ => wf_and_encode_of_decode⟩

/-- Settles O31, by running the decoder. -/
theorem listedWordsDecode : Obligations.ListedWordsDecode := by
  unfold Obligations.ListedWordsDecode
  decide

/-! ### What a command can do -/

/-- The state after INIT (R162). -/
def restarted (s : State) : State :=
  { s with cv := iv, bufCnt := 0, bitLen := 0, phase := Phase.ready, seq := Seq.idle, last := false, err := 0 }

/-- The state after an accepted FINALIZE (R166). -/
def finalizing (s : State) : State := { s with phase := Phase.final, seq := Seq.pad1 }

theorem exec_init (s : State) : exec .init s = .next (restarted s) := rfl

/-- The next states of a word `v` written to CMD (R163). -/
inductive CommandEffect (v : Word) (s : State) : State → Prop
  | nop : CommandEffect v s s
  | init (word : v = 1) : CommandEffect v s (restarted s)
  | rejected (e : ErrCode) (other : e ≠ .lenovf) : CommandEffect v s (raise e s)
  | overflows (ready : s.phase = Phase.ready) : CommandEffect v s (raise .lenovf s)
  | absorbs (nb : BitVec 3) (le : nb.toNat ≤ 4) (word : v = 0x2 ||| nb.setWidth 32 <<< 8)
      (ready : s.phase = Phase.ready) (len : s.bitLen.toNat + 8 * nb.toNat < 2 ^ 64) : CommandEffect v s (absorbed nb s)
  | finalizes (ready : s.phase = Phase.ready) : CommandEffect v s (finalizing s)

theorem command_effect {v : Word} {s t : State} (h : command v s = .next t) : CommandEffect v s t := by
  obtain ⟨i, code, e⟩ | ⟨-, -, e⟩ := command_cases v s <;> rw [e] at h
  · obtain ⟨-, rfl⟩ | ⟨word, rfl⟩ | ⟨nb, -, word, rfl⟩ | ⟨-, rfl⟩ := decode_cmd_ok code
    · cases h; exact .nop
    · cases h; exact .init word
    · obtain ⟨-, rfl⟩ | ⟨-, rfl⟩ | ⟨-, rfl⟩ | ⟨ready, -, rfl⟩ | ⟨le, ready, len, -, rfl⟩ := execUpdate_next h
      · exact .rejected .illcmd (by decide)
      · exact .rejected .busycmd (by decide)
      · exact .rejected .invstate (by decide)
      · exact .overflows ready
      · exact .absorbs nb le word ready len
    · obtain ⟨-, rfl⟩ | ⟨-, rfl⟩ | ⟨ready, rfl⟩ := execFinalize_next h
      · exact .rejected .busycmd (by decide)
      · exact .rejected .invstate (by decide)
      · exact .finalizes ready
  · cases h; exact .rejected .illcmd (by decide)

/-! ### What an access of HOST can do -/

/-- The next states of HOST's turn. -/
inductive HostEffect (s : State) : State → Prop
  | ignored (host : List HostOp) : HostEffect s { s with host := host }
  | read (off : BitVec 6) (host : List HostOp) : HostEffect s (readAccess off { s with host := host })
  | clears {off : BitVec 6} {v : Word} {rest : List HostOp} (op : s.host = .write off v :: rest)
      (reg : WinReg.ofOffset off = .err) : HostEffect s (clearErrors v { s with host := rest })
  | setsDin {off : BitVec 6} {v : Word} {rest : List HostOp} (op : s.host = .write off v :: rest)
      (reg : WinReg.ofOffset off = .din) : HostEffect s { s with host := rest, din := v }
  | commands {off : BitVec 6} {v : Word} {rest : List HostOp} {t : State} (op : s.host = .write off v :: rest)
      (reg : WinReg.ofOffset off = .cmd) (effect : CommandEffect v { s with host := rest } t) : HostEffect s t

theorem hostTurn_effect {s t : State} (h : hostTurn s = .next t) : HostEffect s t := by
  obtain ⟨-, e⟩ | ⟨off, rest, -, e⟩ | ⟨off, v, rest, op, e⟩ | ⟨rest, -, -, e⟩ | ⟨rest, -, -, e⟩ := hostTurn_cases s <;>
    rw [e] at h
  · cases h; exact .ignored s.host
  · cases h; exact .read off rest
  · obtain ⟨reg, e⟩ | ⟨reg, e⟩ | ⟨reg, e⟩ | ⟨-, -, -, e⟩ :=
      writeReg_cases (WinReg.ofOffset off) v { s with host := rest } <;> rw [memWrite, e] at h
    · exact .commands op reg (command_effect h)
    · cases h; exact .clears op reg
    · cases h; exact .setsDin op reg
    · cases h; exact .ignored rest
  · cases h; exact .read _ s.host
  · cases h; exact .read _ rest

/-! ### What a micro-operation can do -/

/-- The state after LOAD of a whole block (R133). -/
def loaded (s : State) : State :=
  { s with
    win := Vector.ofFn (bufWord s.buf), work := Work.ofCv s.cv, buf := storeBytes 0 (carriedBytes s) s.buf,
    bufCnt := Fin.ofNat 68 (s.bufCnt.val - 64), seq := Seq.round 0 }

/-- The state after ROUND(n) (R148). -/
def rounded (n : BitVec 6) (s : State) : State :=
  { s with
    work := roundStep s.work (schedw n s.win) (roundConstant n), win := winAfter n s.win,
    seq := if n.toNat < 63 then Seq.round (n + 1) else Seq.feed }

/-- The next states of SEQ's turn. -/
inductive SeqEffect (s : State) : State → Prop
  | idle : SeqEffect s s
  | pads (last : Bool) (buf : Vector Byte 67) : SeqEffect s (padded last buf s)
  | loads : SeqEffect s (loaded s)
  | rounds (n : BitVec 6) : SeqEffect s (rounded n s)
  | feeds (phase : BitVec 3) (seq : BitVec 8) (code : s.seq = Seq.feed) (busy : Phase.isBusy s.phase) :
      SeqEffect s { s with cv := feedForward s.cv s.work, phase := phase, seq := seq }
  | finishes (busy : Phase.isBusy s.phase) : SeqEffect s { s with phase := Phase.done, seq := Seq.idle }

theorem seqTurn_effect {s t : State} (h : seqTurn s = .next t) : SeqEffect s t := by
  obtain ⟨i, code, e⟩ | e := seqTurn_cases s <;> rw [e] at h
  · obtain ⟨-, rfl⟩ | ⟨-, rfl⟩ | ⟨-, rfl⟩ | ⟨-, rfl⟩ | ⟨feed, rfl⟩ | ⟨-, rfl⟩ | ⟨n, -, rfl⟩ := decode_seq_ok code
    · cases h; exact .idle
    · obtain ⟨-, rfl⟩ | ⟨-, -, rfl⟩ := execPad1_next h <;> exact .pads _ _
    · cases h; exact .pads _ _
    · obtain ⟨-, rfl⟩ := execLoad_next h; exact .loads
    · obtain ⟨block, rfl⟩ | ⟨final, rfl⟩ := execFeed_next h
      · exact .feeds _ _ feed (.inl block)
      · exact .feeds s.phase _ feed (.inr final)
    · obtain ⟨final, rfl⟩ := execSer_next h; exact .finishes (.inr final)
    · cases h; exact .rounds n
  · cases h

/-- Everything a step that goes on can do, by whose turn it is. -/
theorem step_effect {s t : State} (h : step s = .next t) :
    (nextTurn s = .reset ∧ t = resetEvent (beginStep s)) ∨ (nextTurn s = .host ∧ HostEffect (beginStep s) t) ∨
    (nextTurn s = .seq ∧ SeqEffect (beginStep s) t) := by
  obtain ⟨turn, e⟩ | ⟨turn, -, e⟩ | ⟨turn, -, e⟩ | ⟨-, -, f, -, e⟩ := step_cases s <;> rw [e] at h
  · cases h; exact .inl ⟨turn, rfl⟩
  · exact .inr (.inl ⟨turn, hostTurn_effect h⟩)
  · exact .inr (.inr ⟨turn, seqTurn_effect h⟩)
  · cases h

/-! ### The chaining value -/

theorem HostEffect.cv_cases {s t : State} (h : HostEffect s t) :
    t.cv = s.cv ∨ ((∃ off rest, s.host = .write off 1 :: rest ∧ WinReg.ofOffset off = .cmd) ∧ t.cv = iv) := by
  cases h with
  | commands op reg effect =>
    cases effect with
    | init word => exact .inr ⟨⟨_, _, word ▸ op, reg⟩, rfl⟩
    | absorbs nb => exact .inl (absorbed_cv nb _)
    | _ => exact .inl rfl
  | _ => exact .inl rfl

theorem SeqEffect.cv_cases {s t : State} (h : SeqEffect s t) :
    t.cv = s.cv ∨ (s.seq = Seq.feed ∧ Phase.isBusy s.phase ∧ t.cv = feedForward s.cv s.work) := by
  cases h with
  | feeds _ _ code busy => exact .inr ⟨code, busy, rfl⟩
  | _ => exact .inl rfl

/-- Settles O41: of HOST's accesses only INIT writes CV, of the micro-operations only FEED. -/
theorem onlyInitResetAndFeedWriteTheChainingValue : Obligations.OnlyInitResetAndFeedWriteTheChainingValue := by
  intro s t h
  obtain ⟨turn, rfl⟩ | ⟨turn, effect⟩ | ⟨turn, effect⟩ := step_effect h
  · exact .inr (.inl ⟨turn, rfl⟩)
  · exact effect.cv_cases.imp_right fun ⟨init, new⟩ => .inr (.inl ⟨⟨turn, init⟩, new⟩)
  · exact effect.cv_cases.imp_right fun ⟨code, _, new⟩ => .inr (.inr ⟨turn, code, new⟩)

/-! ### The length and DIN -/

theorem HostEffect.bitLen_cases {s t : State} (h : HostEffect s t) :
    t.bitLen = s.bitLen ∨ ∃ off v rest, s.host = .write off v :: rest ∧ WinReg.ofOffset off = .cmd ∧
      ((v = 1 ∧ t.bitLen = 0) ∨ (s.phase = Phase.ready ∧ ∃ nb : BitVec 3, nb.toNat ≤ 4 ∧
        v = 0x2 ||| nb.setWidth 32 <<< 8 ∧ t.bitLen.toNat = s.bitLen.toNat + 8 * nb.toNat)) := by
  cases h with
  | commands op reg effect =>
    cases effect with
    | init word => exact .inr ⟨_, _, _, op, reg, .inl ⟨word, rfl⟩⟩
    | absorbs nb le word ready len =>
      exact .inr ⟨_, _, _, op, reg, .inr ⟨ready, nb, le, word, absorbed_bitLen_toNat len⟩⟩
    | _ => exact .inl rfl
  | _ => exact .inl rfl

theorem HostEffect.din_cases {s t : State} (h : HostEffect s t) :
    t.din = s.din ∨ ∃ off v rest, s.host = .write off v :: rest ∧ WinReg.ofOffset off = .din := by
  cases h with
  | setsDin op reg => exact .inr ⟨_, _, _, op, reg⟩
  | commands _ _ effect =>
    cases effect with
    | absorbs nb => exact .inl (absorbed_din nb _)
    | _ => exact .inl rfl
  | _ => exact .inl rfl

theorem SeqEffect.keeps_inputs {s t : State} (h : SeqEffect s t) :
    t.bitLen = s.bitLen ∧ t.din = s.din ∧ t.err = s.err := by
  cases h <;> exact ⟨rfl, rfl, rfl⟩

/-- Settles O42: BITLEN by the command written, DIN by the register written; no micro-operation writes either. -/
theorem onlyHostChangesLengthAndDataIn : Obligations.OnlyHostChangesLengthAndDataIn := by
  intro s t h
  obtain ⟨turn, rfl⟩ | ⟨turn, effect⟩ | ⟨-, effect⟩ := step_effect h
  · exact ⟨.inr (.inl ⟨turn, rfl⟩), .inr (.inl turn)⟩
  · refine ⟨?_, effect.din_cases.imp_right fun din => .inr ⟨turn, din⟩⟩
    obtain same | ⟨off, v, rest, op, reg, ⟨rfl, new⟩ | ⟨ready, nb, le, rfl, new⟩⟩ := effect.bitLen_cases
    · exact .inl same
    · exact .inr (.inr (.inl ⟨⟨turn, off, rest, op, reg⟩, new⟩))
    · exact .inr (.inr (.inr ⟨ready, nb, le, ⟨turn, off, rest, op, reg⟩, new⟩))
  · obtain ⟨bitLen, din, -⟩ := effect.keeps_inputs
    exact ⟨.inl bitLen, .inl din⟩

/-! ### The finished phases and the ERR bits -/

/-- R194, R198: in DONE and FAILED no command but INIT changes the phase. -/
theorem CommandEffect.keeps_finished {v : Word} {s t : State} (h : CommandEffect v s t) (other : v ≠ 1)
    (finished : s.phase = Phase.done ∨ s.phase = Phase.failed) : t.phase = s.phase := by
  have notReady : s.phase ≠ Phase.ready := by
    obtain p | p := finished <;> rw [p] <;> decide
  cases h with
  | nop => rfl
  | init word => exact absurd word other
  | rejected e ne => exact if_neg ne
  | overflows ready => exact absurd ready notReady
  | absorbs _ _ _ ready => exact absurd ready notReady
  | finalizes ready => exact absurd ready notReady

theorem SeqEffect.keeps_finished {s t : State} (h : SeqEffect s t)
    (finished : s.phase = Phase.done ∨ s.phase = Phase.failed) : t.phase = s.phase := by
  have notBusy : ¬ Phase.isBusy s.phase := by
    obtain p | p := finished <;> rw [p] <;> decide
  cases h with
  | feeds _ _ _ busy => exact absurd busy notBusy
  | finishes busy => exact absurd busy notBusy
  | _ => rfl

/-- R198, R217: only INIT and reset end DONE and FAILED. -/
theorem step_keeps_finished {s t : State} (h : step s = .next t) (noReset : nextTurn s ≠ .reset)
    (noInit : ¬ s.issues 1) (finished : s.phase = Phase.done ∨ s.phase = Phase.failed) : t.phase = s.phase := by
  obtain ⟨turn, -⟩ | ⟨turn, effect⟩ | ⟨-, effect⟩ := step_effect h
  · exact absurd turn noReset
  · cases effect with
    | commands op reg effect =>
      exact effect.keeps_finished (fun word => noInit ⟨turn, _, _, word ▸ op, reg⟩) finished
    | _ => rfl
  · exact effect.keeps_finished finished

/-- R191: a command other than INIT sets ERR bits only. -/
theorem CommandEffect.err_cases {v : Word} {s t : State} (h : CommandEffect v s t) :
    v = 1 ∨ ∃ bits, t.err = s.err ||| bits := by
  cases h with
  | init word => exact .inl word
  | rejected e => exact .inr ⟨e.bit, rfl⟩
  | overflows => exact .inr ⟨_, rfl⟩
  | absorbs nb => exact .inr ⟨0, (absorbed_err nb s).trans BitVec.or_zero.symm⟩
  | _ => exact .inr ⟨0, (BitVec.or_zero).symm⟩

/-- R198: ERR after a step that is neither reset nor INIT, with a write to ERR apart. -/
theorem step_err_cases {s t : State} (h : step s = .next t) (noReset : nextTurn s ≠ .reset)
    (noInit : ¬ s.issues 1) :
    (∃ bits, t.err = s.err ||| bits) ∨ (s.writes .err ∧ ∃ v, t.err = errAfterWrite s.err v) := by
  obtain ⟨turn, -⟩ | ⟨turn, effect⟩ | ⟨-, effect⟩ := step_effect h
  · exact absurd turn noReset
  · cases effect with
    | clears op reg => exact .inr ⟨⟨turn, _, _, _, op, reg⟩, _, rfl⟩
    | commands op reg effect =>
      exact .inl (effect.err_cases.resolve_left fun word => noInit ⟨turn, _, _, word ▸ op, reg⟩)
    | _ => exact .inl ⟨0, (BitVec.or_zero).symm⟩
  · obtain ⟨-, -, err⟩ := effect.keeps_inputs
    exact .inl ⟨0, err.trans (BitVec.or_zero).symm⟩

theorem getLsbD_or_of_left {x y : BitVec 4} {b : Nat} (h : x.getLsbD b = true) : (x ||| y).getLsbD b = true := by
  rw [BitVec.getLsbD_or, h, Bool.true_or]

/-- R35: bit by bit, a write to ERR. -/
theorem errAfterWrite_getLsbD (err : BitVec 4) (v : Word) (b : Nat) :
    (errAfterWrite err v).getLsbD b = (err.getLsbD b && !(decide (1 ≤ b) && decide (b ≤ 3) && v.getLsbD b)) := by
  have mask : ∀ b < 4, (0xE : BitVec 4).getLsbD b = decide (1 ≤ b) := by decide
  by_cases hb : b < 4
  · have le : b ≤ 3 := by omega
    simp only [errAfterWrite, BitVec.getLsbD_and, BitVec.getLsbD_not, BitVec.getLsbD_setWidth, mask b hb]
    simp [hb, le, Bool.and_comm]
  · simp [BitVec.getLsbD_of_ge _ b (not_lt.mp hb)]

/-- Settles O43: FAILED by the phases that only INIT and reset leave, bit 0 since a write to ERR does not clear it. -/
theorem failedIsLeftOnlyByInitOrReset : Obligations.FailedIsLeftOnlyByInitOrReset := by
  intro s t h noReset noInit
  refine ⟨fun failed => (step_keeps_finished h noReset noInit (.inr failed)).trans failed, fun bit => ?_⟩
  obtain ⟨bits, err⟩ | ⟨-, v, err⟩ := step_err_cases h noReset noInit <;> rw [err]
  · exact getLsbD_or_of_left bit
  · rw [errAfterWrite_getLsbD, bit]
    rfl

/-- Settles O44: without a write to ERR, a step sets bits only. -/
theorem errorBitsAreSticky : Obligations.ErrorBitsAreSticky := by
  intro s t h noReset noInit noWrite b bit
  obtain ⟨bits, err⟩ | ⟨write, -⟩ := step_err_cases h noReset noInit
  · exact err ▸ getLsbD_or_of_left bit
  · exact absurd write noWrite

/-- A Digest register reads a Word of CV in DONE and 0 elsewhere (R39). -/
theorem memRead_digest (i : Fin 8) (s : State) :
    memRead (WinReg.digest i).offset s = if s.phase = Phase.done then s.cv[i] else 0 :=
  memRead_of_offset (r := .digest i) s rfl

/-- Settles O46: DONE stays, and with it CV, since FEED runs in BLOCK and FINAL only. -/
theorem digestStaysUntilInitOrReset : Obligations.DigestStaysUntilInitOrReset := by
  intro s t h noReset noInit done
  have phase : t.phase = s.phase := step_keeps_finished h noReset noInit (.inl done)
  have cv : t.cv = s.cv := by
    obtain ⟨turn, -⟩ | ⟨turn, effect⟩ | ⟨-, effect⟩ := step_effect h
    · exact absurd turn noReset
    · exact effect.cv_cases.resolve_right fun ⟨init, _⟩ => noInit ⟨turn, init⟩
    · refine effect.cv_cases.resolve_right fun ⟨_, busy, _⟩ => ?_
      rw [beginStep_phase, done] at busy
      exact absurd busy (by decide)
  exact ⟨phase.trans done, fun i => by rw [memRead_digest, memRead_digest, phase, cv]⟩

end Sys2Proof.Machine

/-! SUPPORT. The family of R42's table: what its states allow, that every step keeps them and goes on from them, and
that what is unspecified in them never reaches anything else. -/

namespace Sys2Proof.Machine

/-! ### The table is kept -/

/-- Settles O36: the invariant of the runs from reset. -/
theorem everyStepKeepsTheStateTable : Obligations.EveryStepKeepsTheStateTable :=
  fun _ _ inv h => step_keeps_inv h inv

/-- Settles O37: the table's registers are those of `State.reset`, whatever the rest holds. -/
theorem resetIsInTheStateTable : Obligations.ResetIsInTheStateTable :=
  fun _ _ _ _ _ => (inv_iff_control_inv _).mpr resetState_control_inv

/-! ### What the table excludes -/

/-- What R199's check asks of PHASE, of SEQ and of each micro-operation that can fault. -/
theorem allowed_of_wf {s : State} (wf : s.wf) :
    s.phase.toNat ≤ 4 ∧ (s.seq.toNat ≤ 5 ∨ Seq.isRound s.seq) ∧ (s.seq = Seq.load → 64 ≤ s.bufCnt.val) ∧
    (s.seq = Seq.feed → Phase.isBusy s.phase) ∧ (s.seq = Seq.ser → s.phase = Phase.final) ∧
    (s.seq = Seq.pad1 → s.bufCnt.val ≤ 63) := by
  have passes := (violation_eq_none_iff s).mpr wf
  unfold State.violation at passes
  split_ifs at passes with phase code load feed ser pad1
  refine ⟨by omega, code, fun q => ?_, fun q => ?_, fun q => ?_, fun q => ?_⟩
  · exact not_lt.mp fun lt => load ⟨q, lt⟩
  · exact not_not.mp fun idle => feed ⟨q, idle⟩
  · exact not_not.mp fun ne => ser ⟨q, ne⟩
  · exact not_lt.mp fun gt => pad1 ⟨q, gt⟩

theorem room_of_ready {s : State} (wf : s.wf) (ready : s.phase = Phase.ready) : s.bufCnt.val ≤ 63 := by
  obtain ⟨-, row⟩ := wf
  simp only [State.inTable, ready] at row
  simp at row
  omega

theorem isRound_iff (q : BitVec 8) : Seq.isRound q ↔ 0x40 ≤ q.toNat ∧ q.toNat < 0x80 := by
  revert q; decide

theorem violation_of_phase {s : State} (h : 5 ≤ s.phase.toNat) : s.violation = some .badPhaseCode := if_pos h

theorem violation_of_code {s : State} (phase : s.phase.toNat ≤ 4)
    (code : (0x06 ≤ s.seq.toNat ∧ s.seq.toNat ≤ 0x3F) ∨ 0x80 ≤ s.seq.toNat) : s.violation = some .badSeqCode := by
  have unused : ¬ (s.seq.toNat ≤ 5 ∨ Seq.isRound s.seq) := by rw [isRound_iff]; omega
  exact (if_neg (by omega)).trans (if_pos unused)

/-- R199: a step of HOST or SEQ faults with the reason the check names. -/
theorem step_of_violation {s : State} {f : Fault} (turn : nextTurn s ≠ .reset) (h : s.violation = some f) :
    step s = .fault f := by
  have notWf : ¬ s.wf := fun wf => by
    rw [(violation_eq_none_iff s).mpr wf] at h
    cases h
  obtain ⟨reset, -⟩ | ⟨-, wf, -⟩ | ⟨-, wf, -⟩ | ⟨-, -, g, hg, e⟩ := step_cases s
  · exact absurd reset turn
  · exact absurd wf notWf
  · exact absurd wf notWf
  · cases h.symm.trans hg
    exact e

theorem whenReady_of_bad_phase {f : State → Result} {s : State} (bad : 5 ≤ s.phase.toNat) :
    whenReady f s = .fault .badPhaseCode := by
  obtain ⟨p | p, -⟩ | ⟨p | p, -⟩ | ⟨p, -⟩ | ⟨-, e⟩ := whenReady_cases f s
  case inr.inr.inr => exact e
  all_goals rw [p] at bad; exact absurd bad (by decide)

/-- Settles O17: the phase checks of UPDATE and FINALIZE, UPDATE's room in BUF, and R199's check before a step. -/
theorem excludedRegisterValuesFault : Obligations.ExcludedRegisterValuesFault := by
  refine ⟨fun s nb bad le => ?_, fun s nb ready le len full => ?_, fun s turn => ⟨fun notWf => ?_, fun bad => ?_,
    fun phase code => ?_⟩⟩
  · exact ⟨(exec_update_eq le s).trans (whenReady_of_bad_phase bad), whenReady_of_bad_phase bad⟩
  · calc exec (.update nb) s
      _ = whenReady (absorb nb) s := exec_update_eq le s
      _ = absorb nb s := whenReady_of_ready ready
      _ = .fault .bufferOverflow := (if_neg len.not_ge).trans (if_pos full)
  · cases h : s.violation with
    | none => exact absurd ((violation_eq_none_iff s).mp h) notWf
    | some f => exact ⟨f, step_of_violation turn h⟩
  · exact step_of_violation turn (violation_of_phase bad)
  · exact step_of_violation turn (violation_of_code phase code)

/-! ### From the table every step goes on -/

theorem whenReady_goes_on {f : State → Result} {s : State} (phase : s.phase.toNat ≤ 4)
    (accepted : s.phase = Phase.ready → ∃ t, f s = .next t) : ∃ t, whenReady f s = .next t := by
  obtain ⟨-, e⟩ | ⟨-, e⟩ | ⟨ready, e⟩ | ⟨bad, -⟩ := whenReady_cases f s
  · exact ⟨_, e⟩
  · exact ⟨_, e⟩
  · rw [e]; exact accepted ready
  · omega

theorem absorb_goes_on {nb : BitVec 3} {s : State} (le : nb.toNat ≤ 4) (room : s.bufCnt.val ≤ 63) :
    ∃ t, absorb nb s = .next t := by
  obtain ⟨-, e⟩ | ⟨-, full, -⟩ | ⟨-, -, e⟩ := absorb_cases nb s
  · exact ⟨_, e⟩
  · omega
  · exact ⟨_, e⟩

theorem command_goes_on {s : State} (wf : s.wf) (v : Word) : ∃ t, command v s = .next t := by
  obtain ⟨phase, -⟩ := allowed_of_wf wf
  obtain ⟨i, code, e⟩ | ⟨-, -, e⟩ := command_cases v s <;> rw [e]
  · obtain ⟨-, rfl⟩ | ⟨-, rfl⟩ | ⟨nb, le, -, rfl⟩ | ⟨-, rfl⟩ := decode_cmd_ok code
    · exact ⟨_, rfl⟩
    · exact ⟨_, rfl⟩
    · rw [exec_update_eq le]
      exact whenReady_goes_on phase fun ready => absorb_goes_on le (room_of_ready wf ready)
    · exact whenReady_goes_on phase fun _ => ⟨_, rfl⟩
  · exact ⟨_, rfl⟩

theorem hostTurn_goes_on {s : State} (wf : s.wf) : ∃ t, hostTurn s = .next t := by
  obtain ⟨-, e⟩ | ⟨_, _, -, e⟩ | ⟨off, v, rest, -, e⟩ | ⟨_, -, -, e⟩ | ⟨_, -, -, e⟩ := hostTurn_cases s <;> rw [e]
  case inr.inr.inl =>
    obtain ⟨-, e⟩ | ⟨-, e⟩ | ⟨-, e⟩ | ⟨-, -, -, e⟩ :=
      writeReg_cases (WinReg.ofOffset off) v { s with host := rest } <;> rw [memWrite, e]
    case inl => exact command_goes_on (s := { s with host := rest }) wf v
    all_goals exact ⟨_, rfl⟩
  all_goals exact ⟨_, rfl⟩

theorem decode_seq_of_listed {q : BitVec 8} (h : q.toNat ≤ 5 ∨ Seq.isRound q) : ∃ i, decode (.seq q) = .ok i := by
  cases dec : decode (.seq q) with
  | ok i => exact ⟨i, rfl⟩
  | error e =>
    have all : ∀ p : BitVec 8, p.toNat ≤ 5 ∨ Seq.isRound p → (decode (.seq p)).toBool = true := by decide
    have ok := all q h
    rw [dec] at ok
    cases ok

/-- R42 has in each row what the micro-operation of its SEQ code asks for. -/
theorem exec_of_seq_goes_on {s : State} {i : Instr} (wf : s.wf) (code : decode (.seq s.seq) = .ok i) :
    ∃ t, exec i s = .next t := by
  obtain ⟨-, -, load, feed, ser, pad1⟩ := allowed_of_wf wf
  obtain ⟨-, rfl⟩ | ⟨q, rfl⟩ | ⟨-, rfl⟩ | ⟨q, rfl⟩ | ⟨q, rfl⟩ | ⟨q, rfl⟩ | ⟨n, -, rfl⟩ := decode_seq_ok code
  · exact ⟨_, rfl⟩
  · obtain short | long := Nat.lt_or_ge 55 s.bufCnt.val
    · exact ⟨_, execPad1_long short (pad1 q)⟩
    · exact ⟨_, execPad1_short long⟩
  · exact ⟨_, rfl⟩
  · exact ⟨_, execLoad_of_whole_block (load q)⟩
  · obtain block | final := feed q
    · exact ⟨_, execFeed_of_block block⟩
    · exact ⟨_, execFeed_of_final final⟩
  · exact ⟨_, if_pos (ser q)⟩
  · exact ⟨_, rfl⟩

theorem seqTurn_of_decode {s : State} {i : Instr} (code : decode (.seq s.seq) = .ok i) : seqTurn s = exec i s := by
  rw [seqTurn, code]

theorem seqTurn_goes_on {s : State} (wf : s.wf) : ∃ t, seqTurn s = .next t := by
  obtain ⟨-, listed, -⟩ := allowed_of_wf wf
  obtain ⟨i, code⟩ := decode_seq_of_listed listed
  rw [seqTurn_of_decode code]
  exact exec_of_seq_goes_on wf code

/-- Settles O39: the reset event always, and in the states of R42 HOST's access and SEQ's micro-operation. -/
theorem noFaultFromTheStateTable : Obligations.NoFaultFromTheStateTable := by
  intro s wf
  obtain ⟨-, e⟩ | ⟨-, -, e⟩ | ⟨-, -, e⟩ | ⟨-, notWf, -⟩ := step_cases s
  · exact ⟨_, e⟩
  · rw [e]; exact hostTurn_goes_on (s := beginStep s) wf
  · rw [e]; exact seqTurn_goes_on (s := beginStep s) wf
  · exact absurd wf notWf

/-! ### What no read sees -/

theorem memRead_hidden (off : BitVec 6) (s : State) (x : Work) (win : Vector Word 16) (buf : Vector Byte 67) :
    memRead off { s with work := x, win := win, buf := buf } = memRead off s := by
  unfold memRead
  cases WinReg.ofOffset off <;> rfl

theorem memRead_cv_hidden (off : BitVec 6) {s : State} (other : s.phase ≠ Phase.done) (cv : Vector Word 8) :
    memRead off { s with cv := cv } = memRead off s := by
  unfold memRead
  cases WinReg.ofOffset off with
  | digest i => exact (if_neg other).trans (if_neg other).symm
  | _ => rfl

/-- Settles O24: STATUS and the plain registers by their fields, DIGEST by its test for DONE. -/
theorem hiddenRegistersCannotBeRead : Obligations.HiddenRegistersCannotBeRead :=
  fun s off x win buf cv => ⟨memRead_hidden off s x win buf, fun other => memRead_cv_hidden off other cv⟩

/-! ### What is unspecified never matters -/

/-- Where `f` answers a next state, it answers one on every state that differs in unspecified contents only, and the two
next states again differ in unspecified contents only. -/
def Insensitive (f : State → Result) (s : State) : Prop :=
  ∀ t s', s.AgreesWith t → f s = .next s' → ∃ t', f t = .next t' ∧ s'.AgreesWith t'

/-- `AgreesWith`, with the second state written as the first with other hidden contents. -/
theorem State.AgreesWith.exists_hidden {s t : State} (h : s.AgreesWith t) :
    ∃ x win buf, t = { s with work := x, win := win, buf := buf } ∧ (Seq.isRound s.seq → x = s.work ∧ win = s.win) ∧
      (s.seq = Seq.feed → x = s.work) ∧ ∀ i (_ : i < 67), i < s.bufCnt.val → buf[i] = s.buf[i] :=
  ⟨t.work, t.win, t.buf, h⟩

theorem State.AgreesWith.phase_eq {s t : State} (h : s.AgreesWith t) : t.phase = s.phase := by
  obtain ⟨x, win, buf, rfl, -⟩ := h.exists_hidden
  rfl

theorem State.AgreesWith.seq_eq {s t : State} (h : s.AgreesWith t) : t.seq = s.seq := by
  obtain ⟨x, win, buf, rfl, -⟩ := h.exists_hidden
  rfl

theorem State.AgreesWith.host_eq {s t : State} (h : s.AgreesWith t) : t.host = s.host := by
  obtain ⟨x, win, buf, rfl, -⟩ := h.exists_hidden
  rfl

theorem State.AgreesWith.memRead_eq {s t : State} (h : s.AgreesWith t) (off : BitVec 6) :
    memRead off t = memRead off s := by
  obtain ⟨x, win, buf, rfl, -⟩ := h.exists_hidden
  exact memRead_hidden off s x win buf

theorem State.AgreesWith.refl (s : State) : s.AgreesWith s := ⟨rfl, fun _ => ⟨rfl, rfl⟩, fun _ => rfl, fun _ _ _ => rfl⟩

theorem outside_rounds (q : BitVec 8) (h : q.toNat ≤ 5 ∧ q ≠ Seq.feed) : ¬ Seq.isRound q ∧ q ≠ Seq.feed := by
  obtain ⟨le, ne⟩ := h
  refine ⟨fun round => ?_, ne⟩
  rw [isRound_iff] at round
  omega

/-- Outside the rounds, only the bytes of BUF below BUFCNT have to agree. -/
theorem agreesWith_outside_rounds {s t : State} (same : t = { s with work := t.work, win := t.win, buf := t.buf })
    (outside : ¬ Seq.isRound s.seq ∧ s.seq ≠ Seq.feed)
    (bytes : ∀ i (_ : i < 67), i < s.bufCnt.val → t.buf[i] = s.buf[i]) : s.AgreesWith t :=
  ⟨same, fun q => absurd q outside.1, fun q => absurd q outside.2, bytes⟩

/-- A meaning that rewrites other registers only, keeps BUFCNT or lowers it, and keeps SEQ or leaves the rounds. -/
theorem insensitive_of_next {f : State → Result} {g : State → State} {s : State}
    (eq : ∀ x win buf, f { s with work := x, win := win, buf := buf } =
      .next { g s with work := x, win := win, buf := buf })
    (code : (g s).seq = s.seq ∨ (¬ Seq.isRound (g s).seq ∧ (g s).seq ≠ Seq.feed))
    (count : (g s).bufCnt.val ≤ s.bufCnt.val) : Insensitive f s := by
  intro t s' agree h
  obtain ⟨x, win, buf, rfl, rounds, feed, bytes⟩ := agree.exists_hidden
  cases (eq s.work s.win s.buf).symm.trans h
  refine ⟨_, eq x win buf, rfl, ?_, ?_, fun i hi lt => bytes i hi (lt.trans_le count)⟩
  · exact code.elim (fun same q => rounds (same ▸ q)) fun other q => absurd q other.1
  · exact code.elim (fun same q => feed (same ▸ q)) fun other q => absurd q other.2

theorem insensitive_raise (e : ErrCode) (s : State) : Insensitive (fun u => .next (raise e u)) s :=
  insensitive_of_next (g := raise e) (fun _ _ _ => rfl) (.inl rfl) le_rfl

/-- The phase checks see PHASE only. -/
theorem insensitive_whenReady {f : State → Result} {s : State} (h : Insensitive f s) :
    Insensitive (whenReady f) s := by
  intro t s' agree next
  unfold whenReady at *
  rw [agree.phase_eq]
  split_ifs at * with busy finished ready
  · exact insensitive_raise _ s t s' agree next
  · exact insensitive_raise _ s t s' agree next
  · exact h t s' agree next

/-- Bytes stored after agreeing ones make all up to their end agree. -/
theorem storeBytes_agree {start : Nat} {bytes : List Byte} {buf buf' : Vector Byte 67}
    (below : ∀ i (_ : i < 67), i < start → buf'[i] = buf[i]) (i : Nat) (hi : i < 67) (lt : i < start + bytes.length) :
    (storeBytes start bytes buf')[i] = (storeBytes start bytes buf)[i] := by
  rw [storeBytes_getElem, storeBytes_getElem]
  split_ifs with inside
  · rfl
  · exact below i hi (by omega)

theorem insensitive_absorb (nb : BitVec 3) (s : State) : Insensitive (absorb nb) s := by
  intro t s' agree h
  obtain ⟨past, e⟩ | ⟨-, -, e⟩ | ⟨len, fits, e⟩ := absorb_cases nb s
  · obtain ⟨t', eq, agree'⟩ := insensitive_raise .lenovf s t s' agree (e.symm.trans h)
    obtain ⟨x, win, buf, rfl, -⟩ := agree.exists_hidden
    exact ⟨t', (absorb_past_bound (s := { s with work := x, win := win, buf := buf }) past).trans eq, agree'⟩
  · cases e.symm.trans h
  · obtain ⟨x, win, buf, rfl, rounds, feed, bytes⟩ := agree.exists_hidden
    cases e.symm.trans h
    refine ⟨absorbed nb _, (if_neg len.not_ge).trans (if_neg fits.not_gt), by simp only [absorbed], ?_, ?_, ?_⟩
    · simp only [absorbed_seq, absorbed_work, absorbed_win]
      split_ifs
      · exact fun q => absurd q (by decide)
      · exact rounds
    · simp only [absorbed_seq, absorbed_work]
      split_ifs
      · exact fun q => absurd q (by decide)
      · exact feed
    · intro i hi lt
      rw [absorbed_bufCnt_val fits] at lt
      simp only [absorbed_buf]
      exact storeBytes_agree bytes i hi (by rwa [dinBytes_length])

theorem insensitive_exec_cmd {v : Word} {i : Instr} (code : decode (.cmd v) = .ok i) (s : State) :
    Insensitive (exec i) s := by
  obtain ⟨-, rfl⟩ | ⟨-, rfl⟩ | ⟨nb, le, -, rfl⟩ | ⟨-, rfl⟩ := decode_cmd_ok code
  · exact insensitive_of_next (g := id) (fun _ _ _ => rfl) (.inl rfl) le_rfl
  · exact insensitive_of_next (g := restarted) (fun _ _ _ => rfl) (.inr (outside_rounds Seq.idle (by decide)))
      (Nat.zero_le _)
  · have eq : exec (.update nb) = whenReady (absorb nb) := funext (exec_update_eq le)
    exact eq ▸ insensitive_whenReady (insensitive_absorb nb s)
  · exact insensitive_whenReady
      (insensitive_of_next (g := finalizing) (fun _ _ _ => rfl) (.inr (outside_rounds Seq.pad1 (by decide))) le_rfl)

theorem insensitive_memWrite (off : BitVec 6) (v : Word) (s : State) : Insensitive (memWrite off v) s := by
  unfold memWrite
  cases WinReg.ofOffset off with
  | cmd =>
    show Insensitive (command v) s
    unfold command
    cases code : decode (.cmd v) with
    | ok i => exact insensitive_exec_cmd code s
    | error e => exact insensitive_raise .illcmd s
  | err => exact insensitive_of_next (g := clearErrors v) (fun _ _ _ => rfl) (.inl rfl) le_rfl
  | din => exact insensitive_of_next (g := fun u => { u with din := v }) (fun _ _ _ => rfl) (.inl rfl) le_rfl
  | _ => exact insensitive_of_next (g := id) (fun _ _ _ => rfl) (.inl rfl) le_rfl

theorem insensitive_readAccess (off : BitVec 6) (host : List HostOp) (s : State) :
    Insensitive (fun u => .next (readAccess off { u with host := host })) s :=
  insensitive_of_next (g := fun u => readAccess off { u with host := host })
    (fun x win buf => by rw [readAccess, memRead_hidden off { s with host := host } x win buf]; rfl) (.inl rfl) le_rfl

/-- An access of HOST, after its operation is used up. -/
theorem Insensitive.with_host {f : State → Result} {s : State} {host : List HostOp}
    (h : Insensitive f { s with host := host }) : Insensitive (fun u => f { u with host := host }) s := by
  intro t s' agree next
  obtain ⟨x, win, buf, rfl, hidden⟩ := agree.exists_hidden
  exact h { s with work := x, win := win, buf := buf, host := host } s' ⟨rfl, hidden⟩ next

theorem Insensitive.of_eq {f g : State → Result} {s : State} (h : Insensitive g s)
    (eq : ∀ t, s.AgreesWith t → f t = g t) : Insensitive f s := by
  intro t s' agree next
  rw [eq s (.refl s)] at next
  rw [eq t agree]
  exact h t s' agree next

theorem insensitive_hostTurn (s : State) : Insensitive hostTurn s := by
  obtain ⟨op, -⟩ | ⟨off, rest, op, -⟩ | ⟨off, v, rest, op, -⟩ | ⟨rest, op, busy, -⟩ | ⟨rest, op, idle, -⟩ :=
    hostTurn_cases s
  · refine (insensitive_of_next (f := .next) (g := id) (fun _ _ _ => rfl) (.inl rfl) le_rfl).of_eq fun t agree => ?_
    rw [hostTurn, agree.host_eq, op]
  · exact (insensitive_readAccess off rest s).of_eq fun t agree => hostTurn_read (agree.host_eq.trans op)
  · exact (insensitive_memWrite off v _).with_host.of_eq fun t agree => hostTurn_write (agree.host_eq.trans op)
  · refine (insensitive_readAccess WinReg.status.offset s.host s).of_eq fun t agree => ?_
    rw [hostTurn, agree.memRead_eq, agree.host_eq, op]
    exact (if_pos busy).trans (by rw [← op, ← agree.host_eq])
  · refine (insensitive_readAccess WinReg.status.offset rest s).of_eq fun t agree => ?_
    rw [hostTurn, agree.memRead_eq, agree.host_eq, op]
    exact if_neg (Bool.eq_false_iff.mp idle)

/-- Both padding steps leave a whole block in BUF (R124, R125). -/
theorem State.AgreesWith.padded {s t : State} (h : s.AgreesWith t) {start : Nat} {bytes : List Byte} (last : Bool)
    (le : start ≤ s.bufCnt.val) (len : start + bytes.length = 64) :
    (padded last (storeBytes start bytes s.buf) s).AgreesWith (padded last (storeBytes start bytes t.buf) t) := by
  obtain ⟨x, win, buf, rfl, -, -, agree⟩ := h.exists_hidden
  exact agreesWith_outside_rounds rfl (outside_rounds Seq.load (by decide)) fun i hi lt =>
    storeBytes_agree (fun j hj below => agree j hj (below.trans_le le)) i hi (len ▸ lt)

theorem take_toList_congr {n : Nat} {buf buf' : Vector Byte 67} (h : ∀ i (_ : i < 67), i < n → buf'[i] = buf[i]) :
    buf'.toList.take n = buf.toList.take n := by
  apply List.ext_getElem
  · simp
  · intro i hi hi'
    simp only [List.length_take, Vector.length_toList, lt_min_iff] at hi
    simpa using h i hi.2 hi.1

/-- LOAD reads BUF below BUFCNT only (R133). -/
theorem State.AgreesWith.loaded {s t : State} (h : s.AgreesWith t) (whole : 64 ≤ s.bufCnt.val) :
    (loaded s).AgreesWith (loaded t) := by
  obtain ⟨x, win, buf, rfl, -, -, agree⟩ := h.exists_hidden
  have words : bufWord buf = bufWord s.buf := by
    funext j
    simp only [bufWord]
    rw [agree _ _ (by omega), agree _ _ (by omega), agree _ _ (by omega), agree _ _ (by omega)]
  have carried : carriedBytes { s with work := x, win := win, buf := buf } = carriedBytes s :=
    congrArg (List.drop 64) (take_toList_congr agree)
  refine ⟨rfl, fun _ => ⟨rfl, congrArg Vector.ofFn words⟩, fun _ => rfl, fun i hi lt => ?_⟩
  have lt' : i < s.bufCnt.val - 64 := lt.trans_eq (Nat.mod_eq_of_lt (by omega))
  simp only [Machine.loaded, carried]
  exact storeBytes_agree (fun j _ none => absurd none (Nat.not_lt_zero j)) i hi (by rw [carriedBytes_length]; omega)

theorem insensitive_exec_seq {s : State} {i : Instr} (code : decode (.seq s.seq) = .ok i) : Insensitive (exec i) s := by
  intro t s' agree h
  obtain ⟨-, rfl⟩ | ⟨-, rfl⟩ | ⟨-, rfl⟩ | ⟨-, rfl⟩ | ⟨q, rfl⟩ | ⟨-, rfl⟩ | ⟨n, q, rfl⟩ := decode_seq_ok code
  · cases h
    exact ⟨t, rfl, agree⟩
  · obtain ⟨short, rfl⟩ | ⟨long, fits, rfl⟩ := execPad1_next h
    · have padded := agree.padded (bytes := 0x80 :: List.replicate (55 - s.bufCnt.val) 0x00 ++ be64 s.bitLen) true
        le_rfl (by simp only [List.length_append, List.length_cons, List.length_replicate, be64_length]; omega)
      obtain ⟨x, win, buf, rfl, -⟩ := agree.exists_hidden
      exact ⟨_, execPad1_short short, padded⟩
    · have padded := agree.padded (bytes := 0x80 :: List.replicate (63 - s.bufCnt.val) 0x00) false le_rfl
        (by simp only [List.length_cons, List.length_replicate]; omega)
      obtain ⟨x, win, buf, rfl, -⟩ := agree.exists_hidden
      exact ⟨_, execPad1_long long fits, padded⟩
  · cases h
    have padded := agree.padded (start := 0) (bytes := List.replicate 56 0x00 ++ be64 s.bitLen) true (Nat.zero_le _) rfl
    obtain ⟨x, win, buf, rfl, -⟩ := agree.exists_hidden
    exact ⟨_, rfl, padded⟩
  · obtain ⟨whole, rfl⟩ := execLoad_next h
    refine ⟨_, execLoad_of_whole_block ?_, agree.loaded whole⟩
    obtain ⟨x, win, buf, rfl, -⟩ := agree.exists_hidden
    exact whole
  · obtain ⟨x, win, buf, rfl, -, feed, bytes⟩ := agree.exists_hidden
    obtain rfl := feed q
    obtain ⟨block, rfl⟩ | ⟨final, rfl⟩ := execFeed_next h
    · exact ⟨_, execFeed_of_block block,
        agreesWith_outside_rounds rfl (outside_rounds Seq.idle (by decide)) bytes⟩
    · refine ⟨_, execFeed_of_final final,
        agreesWith_outside_rounds rfl (outside_rounds (if s.last then Seq.ser else Seq.pad2) ?_) bytes⟩
      cases s.last <;> decide
  · obtain ⟨final, -⟩ := execSer_next h
    exact insensitive_of_next (f := execSer) (g := fun u => { u with phase := Phase.done, seq := Seq.idle })
      (fun _ _ _ => if_pos final) (.inr (outside_rounds Seq.idle (by decide))) le_rfl t s' agree h
  · obtain ⟨x, win, buf, rfl, rounds, -, bytes⟩ := agree.exists_hidden
    obtain ⟨rfl, rfl⟩ := rounds (q ▸ isRound_round n)
    cases h
    exact ⟨_, rfl, rfl, fun _ => ⟨rfl, rfl⟩, fun _ => rfl, bytes⟩

/-- R199's check does not see the hidden contents. -/
theorem insensitive_whenReached {f : State → Result} {s : State} (h : Insensitive f s) :
    Insensitive (whenReached f) s := by
  intro t s' agree next
  obtain ⟨wf, e⟩ | ⟨-, _, -, e⟩ := whenReached_cases f s
  · have wf' : t.wf := by
      obtain ⟨x, win, buf, rfl, -⟩ := agree.exists_hidden
      exact wf
    rw [whenReached_of_wf wf']
    exact h t s' agree (e.symm.trans next)
  · cases e.symm.trans next

theorem insensitive_takeTurn (turn : Turn) (s : State) : Insensitive (takeTurn turn) s := by
  cases turn with
  | host => exact insensitive_whenReached (insensitive_hostTurn s)
  | seq =>
    refine insensitive_whenReached fun t s' agree next => ?_
    obtain ⟨i, code, e⟩ | e := seqTurn_cases s
    · rw [seqTurn_of_decode (s := t) (agree.seq_eq ▸ code)]
      exact insensitive_exec_seq code t s' agree (e.symm.trans next)
    · cases e.symm.trans next
  | reset =>
    intro t s' agree next
    obtain ⟨x, win, buf, rfl, -⟩ := agree.exists_hidden
    cases next
    exact ⟨_, rfl, .refl _⟩

/-- Settles O40: whose turn it is does not depend on what is unspecified, and neither does what that turn does. -/
theorem unspecifiedContentsNeverMatter : Obligations.UnspecifiedContentsNeverMatter := by
  intro s t s' agree next
  obtain ⟨x, win, buf, rfl, hidden⟩ := agree.exists_hidden
  exact insensitive_takeTurn (nextTurn s) (beginStep s) (beginStep _) s' ⟨rfl, hidden⟩ next

end Sys2Proof.Machine

/-! SUPPORT. The family of 44_hasher.md section 1: the blocks of a byte sequence, the padding of a message block by
block, and the abstract Hasher. -/

namespace Sys2Proof.Machine

/-! ### The blocks of a byte sequence -/

theorem blocks_zero (s : List Byte) : blocks 0 s = [] := rfl

theorem blocks_succ (n : Nat) (s : List Byte) : blocks (n + 1) s = blocks n s ++ [blockAt s n] := by
  rw [blocks, List.range_succ, List.map_append, List.map_singleton, blocks]

theorem blockAt_drop (s : List Byte) (n j : Nat) : blockAt (s.drop (64 * n)) j = blockAt s (n + j) := by
  simp only [blockAt, List.getD_eq_getElem?_getD, List.getElem?_drop, Nat.mul_add, Nat.add_assoc]

theorem blocks_add (a b : Nat) (s : List Byte) : blocks (a + b) s = blocks a s ++ blocks b (s.drop (64 * a)) := by
  induction b with
  | zero => simp [blocks_zero]
  | succ b ih => rw [← Nat.add_assoc, blocks_succ, blocks_succ, blockAt_drop, ih, List.append_assoc]

/-- The whole blocks of a sequence are those of every longer one. -/
theorem blocks_append {n : Nat} {s : List Byte} (h : 64 * n ≤ s.length) (rest : List Byte) :
    blocks n (s ++ rest) = blocks n s := by
  refine List.map_congr_left fun j hj => Vector.ext fun i hi => ?_
  have inside : 64 * j + i < s.length := by have := List.mem_range.mp hj; omega
  simp only [blockAt, Vector.getElem_ofFn, List.getD_append _ _ _ _ inside]

/-- The whole blocks of a sequence and what is left of it, once its first `k` blocks are taken. -/
theorem blocks_of_rest {k : Nat} {u : List Byte} (h : 64 * k ≤ u.length) (m : List Byte) {r : List Byte}
    (rest : r = u.drop (64 * k) ++ m) :
    blocks ((u ++ m).length / 64) (u ++ m) = blocks k u ++ blocks (r.length / 64) r ∧
      (u ++ m).drop (64 * ((u ++ m).length / 64)) = r.drop (64 * (r.length / 64)) := by
  have dropped : (u ++ m).drop (64 * k) = r := by rw [rest, List.drop_append_of_le_length h]
  have count : (u ++ m).length / 64 = k + r.length / 64 := by
    rw [rest, List.length_append, List.length_append, List.length_drop]; omega
  constructor
  · rw [count, blocks_add, dropped, blocks_append h]
  · rw [count, Nat.mul_add, ← List.drop_drop, dropped]

/-! ### The abstract Hasher -/

/-- R161: with enough fuel the loop compresses the whole blocks and leaves the rest. -/
theorem consume_eq {n : Nat} {h : Vector Word 8} {u : List Byte} (fuel : u.length / 64 ≤ n) :
    Hasher.consume n h u = ((blocks (u.length / 64) u).foldl compress h, u.drop (64 * (u.length / 64))) := by
  induction n generalizing h u with
  | zero => rw [Nat.le_zero.mp fuel]; rfl
  | succ n ih =>
    by_cases whole : 64 ≤ u.length
    · have rest : (u.drop 64).length / 64 = u.length / 64 - 1 := by rw [List.length_drop]; omega
      have count : u.length / 64 = 1 + (u.length / 64 - 1) := by omega
      rw [Hasher.consume, if_pos whole, ih (by omega), rest, List.drop_drop]
      conv_rhs => rw [count, blocks_add, List.foldl_append]
      have place : 64 + 64 * (u.length / 64 - 1) = 64 * (1 + (u.length / 64 - 1)) := by omega
      rw [place]
      rfl
    · have none : u.length / 64 = 0 := by omega
      rw [Hasher.consume, if_neg whole, none]
      rfl

/-- R161: `update(m)` where the length is in bounds. -/
theorem hasher_update_eq {x : Hasher} {m : List Byte} (running : x.done = false) (len : 8 * (x.l + m.length) < 2 ^ 64) :
    x.update m = .ok
      ⟨(blocks ((x.u ++ m).length / 64) (x.u ++ m)).foldl compress x.h,
        (x.u ++ m).drop (64 * ((x.u ++ m).length / 64)), x.l + m.length, false⟩ := by
  rw [Hasher.update, running, if_neg (by decide), if_neg len.not_ge, consume_eq (Nat.div_le_self _ 64)]

theorem hasher_update_done {x : Hasher} (m : List Byte) (done : x.done = true) : x.update m = .error .invalidState := by
  rw [Hasher.update, done, if_pos rfl]

theorem hasher_update_overflow {x : Hasher} {m : List Byte} (running : x.done = false)
    (len : 2 ^ 64 ≤ 8 * (x.l + m.length)) : x.update m = .error .lengthOverflow := by
  rw [Hasher.update, running, if_neg (by decide), if_pos len]

/-- Settles O53: the second call goes on with the rest that the first has left, and the errors are those of the sum. -/
theorem hasherIgnoresChunkBoundaries : Obligations.HasherIgnoresChunkBoundaries := by
  intro x m₁ m₂
  have sum : x.l + (m₁ ++ m₂).length = x.l + m₁.length + m₂.length := by
    rw [List.length_append, ← Nat.add_assoc]
  cases running : x.done with
  | true => rw [hasher_update_done m₁ running, hasher_update_done _ running]
  | false =>
    by_cases first : 8 * (x.l + m₁.length) < 2 ^ 64
    · rw [hasher_update_eq running first]
      by_cases second : 8 * (x.l + m₁.length + m₂.length) < 2 ^ 64
      · obtain ⟨whole, left⟩ := blocks_of_rest (Nat.mul_div_le (x.u ++ m₁).length 64) m₂ rfl
        rw [hasher_update_eq running (sum ▸ second), ← List.append_assoc, whole, left, List.foldl_append, sum]
        exact hasher_update_eq rfl second
      · rw [hasher_update_overflow running (sum ▸ not_lt.mp second)]
        exact hasher_update_overflow rfl (not_lt.mp second)
    · rw [hasher_update_overflow running (not_lt.mp first), hasher_update_overflow running (by omega)]

/-! ### The padding, block by block -/

/-- R120: whole blocks before the fill change nothing. -/
theorem zeroFill_append {a : List Byte} (whole : a.length % 64 = 0) (n : Nat) (s : List Byte) :
    zeroFill n (a ++ s) = a ++ zeroFill n s := by
  induction n generalizing s with
  | zero => rfl
  | succ n ih =>
    have len : (a ++ s).length % 64 = s.length % 64 := by rw [List.length_append]; omega
    rw [zeroFill, zeroFill, len, List.append_assoc, ih]
    split_ifs <;> rfl

/-- The padding of what is left of the message after its whole blocks. -/
def paddedRest (m : List Byte) : List Byte :=
  zeroFill 63 (m.drop (64 * (m.length / 64)) ++ [0x80]) ++ be64 (BitVec.ofNat 64 (8 * m.length))

theorem paddedBytes_eq_append_rest (m : List Byte) :
    paddedBytes m = m.take (64 * (m.length / 64)) ++ paddedRest m := by
  have whole : (m.take (64 * (m.length / 64))).length % 64 = 0 := by rw [List.length_take]; omega
  rw [paddedBytes, paddedRest, ← List.append_assoc, ← zeroFill_append whole, ← List.append_assoc, List.take_append_drop]

/-- R120: the padded blocks are the whole blocks of the message and those of the padded rest. -/
theorem pad_eq_append_rest (m : List Byte) :
    pad m = blocks (m.length / 64) m ++ blocks ((paddedRest m).length / 64) (paddedRest m) := by
  have len : (m.take (64 * (m.length / 64))).length = 64 * (m.length / 64) := by rw [List.length_take]; omega
  obtain ⟨whole, -⟩ := blocks_of_rest len.ge (paddedRest m) (r := paddedRest m)
    (by rw [List.drop_eq_nil_of_le len.le, List.nil_append])
  have first : blocks (m.length / 64) (m.take (64 * (m.length / 64))) = blocks (m.length / 64) m := by
    rw [← blocks_append len.ge (m.drop (64 * (m.length / 64))), List.take_append_drop]
  rw [pad, paddedBytes_eq_append_rest, whole, first]

/-- Settles O54: the one update compresses the whole blocks, `finalize` those of the padded rest. -/
theorem hasherOneshotIsTheReferenceFunction : Obligations.HasherOneshotIsTheReferenceFunction := by
  intro m
  refine ⟨fun len => ?_, fun len => ?_⟩
  · have updated := hasher_update_eq (x := Hasher.new) (m := m) rfl (by rwa [Hasher.new, Nat.zero_add])
    rw [Hasher.oneshot, updated, sha256, pad_eq_append_rest, List.foldl_append, paddedRest]
    simp only [Hasher.finalize, Hasher.new, List.nil_append, Nat.zero_add]
  · rw [Hasher.oneshot, hasher_update_overflow (x := Hasher.new) rfl (by rwa [Hasher.new, Nat.zero_add])]

end Sys2Proof.Machine

/-! SUPPORT. The family of 44_hasher.md section 4: runs of SEQ that nothing disturbs, their length, and the 66 steps of
a block. -/

namespace Sys2Proof.Machine

/-! ### Runs of SEQ -/

/-- `n` micro-operations lead from `s` to `t`, each of a state of R42 where SEQ is not at IDLE. -/
inductive SeqRun : Nat → State → State → Prop
  | refl (s : State) : SeqRun 0 s s
  | head {n : Nat} {s u t : State} (inv : s.Inv) (active : s.seq ≠ Seq.idle) (first : seqTurn s = .next u)
      (rest : SeqRun n u t) : SeqRun (n + 1) s t

theorem SeqRun.single {s t : State} (inv : s.Inv) (active : s.seq ≠ Seq.idle) (next : seqTurn s = .next t) :
    SeqRun 1 s t :=
  .head inv active next (.refl t)

theorem SeqRun.trans {m n : Nat} {s u t : State} (h : SeqRun m s u) (h' : SeqRun n u t) : SeqRun (m + n) s t := by
  induction h with
  | refl => rwa [Nat.zero_add]
  | head inv active first _ ih => rw [Nat.add_right_comm]; exact .head inv active first (ih h')

theorem seqTurn_keeps_inv {s t : State} (h : seqTurn s = .next t) (inv : s.Inv) : t.Inv :=
  (inv_iff_control_inv t).mpr ((seqTurn_seqMove h).keeps_inv ((inv_iff_control_inv s).mp inv))

theorem SeqRun.inv {n : Nat} {s t : State} (h : SeqRun n s t) (inv : s.Inv) : t.Inv := by
  induction h with
  | refl => exact inv
  | head _ _ first _ ih => exact ih (seqTurn_keeps_inv first inv)

/-- The state with other operations of HOST, other turns and another value on rdata. -/
def State.withEnv (host : List HostOp) (turns : List Turn) (rdata : Option Word) (s : State) : State :=
  { s with host := host, turns := turns, rdata := rdata }

/-- No micro-operation reads or writes what HOST will do, the turns to come or rdata. -/
theorem seqTurn_withEnv {s t : State} (h : seqTurn s = .next t) (host : List HostOp) (turns : List Turn)
    (rdata : Option Word) :
    seqTurn (s.withEnv host turns rdata) = .next (t.withEnv host turns rdata) := by
  obtain ⟨i, code, e⟩ | e := seqTurn_cases s <;> rw [e] at h
  · rw [seqTurn_of_decode (s := s.withEnv host turns rdata) code]
    obtain ⟨-, rfl⟩ | ⟨-, rfl⟩ | ⟨-, rfl⟩ | ⟨-, rfl⟩ | ⟨-, rfl⟩ | ⟨-, rfl⟩ | ⟨n, -, rfl⟩ := decode_seq_ok code
    · cases h; rfl
    · obtain ⟨short, rfl⟩ | ⟨long, fits, rfl⟩ := execPad1_next h
      · exact execPad1_short (s := s.withEnv host turns rdata) short
      · exact execPad1_long (s := s.withEnv host turns rdata) long fits
    · cases h; rfl
    · obtain ⟨whole, rfl⟩ := execLoad_next h
      exact execLoad_of_whole_block (s := s.withEnv host turns rdata) whole
    · obtain ⟨block, rfl⟩ | ⟨final, rfl⟩ := execFeed_next h
      · exact execFeed_of_block (s := s.withEnv host turns rdata) block
      · exact execFeed_of_final (s := s.withEnv host turns rdata) final
    · obtain ⟨final, rfl⟩ := execSer_next h
      exact if_pos final
    · cases h; rfl
  · cases h

theorem SeqRun.withEnv {n : Nat} {s t : State} (h : SeqRun n s t) (host : List HostOp) (turns : List Turn)
    (rdata : Option Word) : SeqRun n (s.withEnv host turns rdata) (t.withEnv host turns rdata) := by
  induction h with
  | refl => exact .refl _
  | head inv active first _ ih => exact .head inv active (seqTurn_withEnv first host turns rdata) ih

/-- SEQ's turn as a step of the machine. -/
theorem step_of_seq_turn {s t : State} (wf : s.wf) (turn : nextTurn s = .seq) (next : seqTurn s = .next t) :
    step s = .next (t.withEnv s.host s.turns.tail none) := by
  rw [step, turn]
  exact (whenReached_of_wf (s := beginStep s) wf).trans (seqTurn_withEnv next s.host s.turns.tail none)

/-- R220: with no turns prescribed SEQ steps while it has a step. -/
theorem SeqRun.run_withEnv {n : Nat} {s t : State} (h : SeqRun n s t) (host : List HostOp) :
    run n (s.withEnv host [] none) = .next (t.withEnv host [] none) := by
  induction h with
  | refl => rfl
  | @head _ s _ _ inv active first _ ih =>
    have next := step_of_seq_turn (s := s.withEnv host [] none) inv.1 (if_neg active)
      (seqTurn_withEnv first host [] none)
    exact (run_succ next).trans ih

theorem step_withEnv_of_no_turns {s : State} (turns : s.turns = []) : step s = step (s.withEnv s.host [] none) := by
  have turn : nextTurn s = nextTurn (s.withEnv s.host [] none) := by rw [nextTurn, turns]; rfl
  have begun : beginStep s = beginStep (s.withEnv s.host [] none) := by rw [beginStep, turns]; rfl
  rw [step, step, turn, begun]

/-- With no turns prescribed the machine's run is SEQ's. -/
theorem SeqRun.run_eq {n : Nat} {s t : State} (h : SeqRun (n + 1) s t) (turns : s.turns = []) :
    run (n + 1) s = .next (t.withEnv s.host [] none) := by
  have quiet := h.run_withEnv s.host
  obtain ⟨u, first, -⟩ := run_succ_next quiet
  rw [run_succ first] at quiet
  rw [run_succ ((step_withEnv_of_no_turns turns).trans first), quiet]

/-! ### How long SEQ runs -/

/-- The steps that FEED's successors need (R170, R173): none from BLOCK, else SER, or PAD2, a block and SER. -/
def Control.stepsAfterFeed (c : Control) : Nat := if c.phase = Phase.block then 0 else if c.last then 1 else 68

/-- The steps from a micro-operation on, `after` of them after FEED (R173); at most so many from PAD1. -/
def stepsFrom (after : Nat) : Instr → Nat
  | .pad1 => 135
  | .pad2 => 68
  | .load => 66 + after
  | .round n => 65 - n.toNat + after
  | .feed => 1 + after
  | .ser => 1
  | _ => 0

/-- A bound on the steps until SEQ is at IDLE. -/
def Control.stepsLeft (c : Control) : Nat :=
  match decode (.seq c.seq) with
  | .ok i => stepsFrom c.stepsAfterFeed i
  | .error _ => 0

theorem Control.stepsLeft_of_decode {c : Control} {i : Instr} (code : decode (.seq c.seq) = .ok i) :
    c.stepsLeft = stepsFrom c.stepsAfterFeed i := by
  rw [Control.stepsLeft, code]

theorem Control.stepsAfterFeed_le (c : Control) : c.stepsAfterFeed ≤ 68 := by
  unfold Control.stepsAfterFeed
  split_ifs <;> decide

theorem Control.stepsLeft_le (c : Control) : c.stepsLeft ≤ 135 := by
  have after := c.stepsAfterFeed_le
  cases code : decode (.seq c.seq) with
  | ok i => rw [Control.stepsLeft_of_decode code]; cases i <;> simp only [stepsFrom] <;> omega
  | error e => rw [Control.stepsLeft, code]; exact Nat.zero_le _

theorem Control.stepsLeft_of_seq {c : Control} {q : BitVec 8} {i : Instr} (code : c.seq = q)
    (dec : decode (.seq q) = .ok i) : c.stepsLeft = stepsFrom c.stepsAfterFeed i :=
  Control.stepsLeft_of_decode (code ▸ dec)

theorem Control.stepsLeft_idle {c : Control} (code : c.seq = Seq.idle) : c.stepsLeft = 0 :=
  Control.stepsLeft_of_seq code (i := .idle) rfl

theorem Control.stepsLeft_load {c : Control} (code : c.seq = Seq.load) : c.stepsLeft = 66 + c.stepsAfterFeed :=
  Control.stepsLeft_of_seq code (i := .load) rfl

theorem Control.stepsLeft_feed {c : Control} (code : c.seq = Seq.feed) : c.stepsLeft = 1 + c.stepsAfterFeed :=
  Control.stepsLeft_of_seq code (i := .feed) rfl

theorem Control.stepsLeft_round {c : Control} {n : BitVec 6} (code : c.seq = Seq.round n) :
    c.stepsLeft = 65 - n.toNat + c.stepsAfterFeed :=
  Control.stepsLeft_of_seq code (decode_seq_round n)

/-- Every micro-operation takes SEQ closer to IDLE. -/
theorem SeqMove.stepsLeft_lt {c d : Control} (h : SeqMove c d) (active : c.seq ≠ Seq.idle) :
    d.stepsLeft < c.stepsLeft := by
  have after := d.stepsAfterFeed_le
  cases h with
  | idle code => exact absurd code active
  | pad1 code last new =>
    have now : c.stepsLeft = 135 := Control.stepsLeft_of_seq code (i := .pad1) rfl
    rw [now, Control.stepsLeft_load (congrArg Control.seq new)]
    omega
  | pad2 code new =>
    have now : c.stepsLeft = 68 := Control.stepsLeft_of_seq code (i := .pad2) rfl
    have one : d.stepsAfterFeed ≤ 1 := by
      rw [new, Control.stepsAfterFeed, if_pos rfl]
      split_ifs <;> decide
    rw [now, Control.stepsLeft_load (congrArg Control.seq new)]
    omega
  | load code new =>
    have same : d.stepsAfterFeed = c.stepsAfterFeed := by rw [new]; rfl
    have first : (0 : BitVec 6).toNat = 0 := rfl
    rw [Control.stepsLeft_load code, Control.stepsLeft_round (congrArg Control.seq new), same]
    omega
  | round n code new =>
    have same : d.stepsAfterFeed = c.stepsAfterFeed := by rw [new]; rfl
    have seq : d.seq = if n.toNat < 63 then Seq.round (n + 1) else Seq.feed := congrArg Control.seq new
    rw [Control.stepsLeft_round code, ← same]
    by_cases more : n.toNat < 63
    · rw [Control.stepsLeft_round (seq.trans (if_pos more)), round_succ_toNat more]
      omega
    · rw [Control.stepsLeft_feed (seq.trans (if_neg more))]
      have lt := n.isLt
      omega
  | feedBlock code phase new =>
    rw [Control.stepsLeft_feed code, Control.stepsLeft_idle (congrArg Control.seq new)]
    omega
  | feedFinal code phase new =>
    have seq : d.seq = if c.last then Seq.ser else Seq.pad2 := congrArg Control.seq new
    have other : c.phase ≠ Phase.block := by rw [phase]; decide
    rw [Control.stepsLeft_feed code, Control.stepsAfterFeed, if_neg other]
    cases last : c.last <;> rw [last] at seq
    · have next : d.stepsLeft = 68 := Control.stepsLeft_of_seq seq (i := .pad2) rfl
      rw [next]
      decide
    · have next : d.stepsLeft = 1 := Control.stepsLeft_of_seq seq (i := .ser) rfl
      rw [next]
      decide
  | ser code new =>
    have now : c.stepsLeft = 1 := Control.stepsLeft_of_seq code (i := .ser) rfl
    rw [now, Control.stepsLeft_idle (congrArg Control.seq new)]
    exact Nat.zero_lt_one

/-- Left alone, SEQ reaches IDLE within the bound. -/
theorem exists_seqRun_to_idle {k : Nat} {s : State} (inv : s.Inv) (bound : s.control.stepsLeft ≤ k) :
    ∃ n t, n ≤ k ∧ SeqRun n s t ∧ t.seq = Seq.idle := by
  induction k generalizing s with
  | zero =>
    by_cases active : s.seq = Seq.idle
    · exact ⟨0, s, le_rfl, .refl s, active⟩
    · obtain ⟨u, first⟩ := seqTurn_goes_on inv.1
      have closer := (seqTurn_seqMove first).stepsLeft_lt active
      omega
  | succ k ih =>
    by_cases active : s.seq = Seq.idle
    · exact ⟨0, s, Nat.zero_le _, .refl s, active⟩
    · obtain ⟨u, first⟩ := seqTurn_goes_on inv.1
      have closer := (seqTurn_seqMove first).stepsLeft_lt active
      obtain ⟨n, t, le, rest, idle⟩ := ih (seqTurn_keeps_inv first inv) (by omega)
      exact ⟨n + 1, t, by omega, .head inv active first rest, idle⟩

/-- R42: SEQ has a step exactly while the core is BUSY. -/
theorem busy_iff_active {s : State} (inv : s.Inv) : Phase.isBusy s.phase ↔ s.seq ≠ Seq.idle := by
  have busy {p : BitVec 3} {q : BitVec 8} (hp : s.phase = p) (hq : s.seq = q)
      (agree : Phase.isBusy p ↔ q ≠ Seq.idle) : Phase.isBusy s.phase ↔ s.seq ≠ Seq.idle := by rwa [hp, hq]
  have rounds : Seq.isRound s.seq ∨ s.seq = Seq.feed → s.seq ≠ Seq.idle := by
    rintro (q | q) idle <;> rw [idle] at q <;> exact absurd q (by decide)
  obtain ⟨-, row⟩ := (inv_iff_control_inv s).mp inv
  cases row with
  | ready p q => exact busy p q (by decide)
  | blockLoad p q => exact busy p q (by decide)
  | blockRounds p q => exact iff_of_true (.inl p) (rounds q)
  | pad1 p q => exact busy p q (by decide)
  | finalLoad p q => exact busy p q (by decide)
  | finalRounds p q => exact iff_of_true (.inr p) (rounds q)
  | pad2 p q => exact busy p q (by decide)
  | ser p q => exact busy p q (by decide)
  | done p q => exact busy p q (by decide)
  | failed p q => exact busy p q (by decide)

/-- Settles O47: SEQ's run within the bound of 135 is the machine's. -/
theorem sequencerFinishes : Obligations.SequencerFinishes := by
  intro s inv
  refine ⟨busy_iff_active inv, fun turns => ?_⟩
  obtain ⟨n, t, le, seqRun, idle⟩ := exists_seqRun_to_idle inv s.control.stepsLeft_le
  have notBusy : ¬ Phase.isBusy t.phase := fun busy => (busy_iff_active (seqRun.inv inv)).mp busy idle
  refine ⟨n, le, ?_⟩
  cases n with
  | zero => cases seqRun; exact ⟨s, rfl, idle, notBusy⟩
  | succ n => exact ⟨_, seqRun.run_eq turns, idle, notBusy⟩

/-! ### The steps of a block -/

theorem loaded_inRounds {s : State} (busy : Phase.isBusy s.phase) : (loaded s).InRounds (bufBlock s.buf) 0 :=
  ⟨busy, rfl, rfl, holdsLatest_load s.buf⟩

theorem rounded_inRounds {b : Block} {n : BitVec 6} {s : State} (h : s.InRounds b n) (more : n.toNat < 63) :
    (rounded n s).InRounds b (n + 1) := by
  have ⟨busy, _, _, win⟩ := h
  refine ⟨busy, if_pos more, ?_, ?_⟩ <;> rw [round_succ_toNat more]
  · exact h.roundStep_eq
  · exact holdsLatest_winAfter win

theorem seqTurn_of_inRounds {b : Block} {n : BitVec 6} {s : State} (h : s.InRounds b n) :
    seqTurn s = .next (rounded n s) := by
  obtain ⟨-, code, -⟩ := h
  exact seqTurn_of_decode (i := .round n) (by rw [code, decode_seq_round])

theorem active_of_isRound {q : BitVec 8} (h : Seq.isRound q) : q ≠ Seq.idle := by
  rintro rfl
  exact absurd h (by decide)

theorem State.InRounds.active {b : Block} {n : BitVec 6} {s : State} (h : s.InRounds b n) : s.seq ≠ Seq.idle := by
  obtain ⟨-, code, -⟩ := h
  exact active_of_isRound (code ▸ isRound_round n)

/-- The state at FEED with `x` in a..h. -/
def atFeed (x : Work) (win : Vector Word 16) (s : State) : State := { s with work := x, win := win, seq := Seq.feed }

/-- R149: the rounds from ROUND(n) on. -/
theorem State.InRounds.seqRun {b : Block} {k : Nat} {n : BitVec 6} {s : State} (left : n.toNat + k = 63)
    (inv : s.Inv) (h : s.InRounds b n) :
    ∃ x win, x = rounds (expand b) 64 (Work.ofCv s.cv) ∧ SeqRun (k + 1) s (atFeed x win s) := by
  induction k generalizing n s with
  | zero =>
    have last : rounded n s = atFeed (roundStep s.work (schedw n s.win) (roundConstant n)) (winAfter n s.win) s := by
      rw [rounded, if_neg (by omega), atFeed]
    refine ⟨_, _, ?_, .single inv h.active (last ▸ seqTurn_of_inRounds h)⟩
    rw [h.roundStep_eq, show n.toNat = 63 from left]
  | succ k ih =>
    have more : n.toNat < 63 := by omega
    have next := seqTurn_of_inRounds h
    obtain ⟨x, win, work, rest⟩ := ih (by rw [round_succ_toNat more]; omega) (seqTurn_keeps_inv next inv)
      (rounded_inRounds h more)
    exact ⟨x, win, work, .head inv h.active next rest⟩

/-- The state after LOAD, 64 rounds and FEED, where the rounds leave `x` in a..h (R133, R170). -/
def compressed (x : Work) (win : Vector Word 16) (s : State) : State :=
  { s with
    cv := feedForward s.cv x
    work := x
    win := win
    buf := storeBytes 0 (carriedBytes s) s.buf
    bufCnt := Fin.ofNat 68 (s.bufCnt.val - 64)
    phase := if s.phase = Phase.block then Phase.ready else s.phase
    seq := if s.phase = Phase.block then Seq.idle else if s.last then Seq.ser else Seq.pad2 }

/-- R170, after the rounds of a loaded block. -/
theorem seqTurn_atFeed {s : State} (busy : Phase.isBusy s.phase) (x : Work) (win : Vector Word 16) :
    seqTurn (atFeed x win (loaded s)) = .next (compressed x win s) := by
  rw [seqTurn_of_decode (i := .feed) rfl]
  obtain block | final := busy
  · rw [compressed, if_pos block, if_pos block]
    exact execFeed_of_block (s := atFeed x win (loaded s)) block
  · have other : s.phase ≠ Phase.block := by rw [final]; decide
    rw [compressed, if_neg other, if_neg other]
    exact execFeed_of_final (s := atFeed x win (loaded s)) final

/-- R150, R173: the 66 steps of a block. -/
theorem seqRun_block {s : State} (inv : s.Inv) (code : s.seq = Seq.load) :
    ∃ x win, feedForward s.cv x = compress s.cv (bufBlock s.buf) ∧ SeqRun 66 s (compressed x win s) := by
  have active : s.seq ≠ Seq.idle := by rw [code]; decide
  have busy : Phase.isBusy s.phase := (busy_iff_active inv).mpr active
  have load : seqTurn s = .next (loaded s) := by
    rw [seqTurn_of_decode (i := .load) (by rw [code]; rfl)]
    obtain ⟨-, -, whole, -⟩ := allowed_of_wf inv.1
    exact execLoad_of_whole_block (whole code)
  have inv₁ : (loaded s).Inv := seqTurn_keeps_inv load inv
  obtain ⟨x, win, work, roundsRun⟩ := (loaded_inRounds busy).seqRun (k := 63) rfl inv₁
  have atFeed_active : (atFeed x win (loaded s)).seq ≠ Seq.idle := show Seq.feed ≠ Seq.idle by decide
  have feedRun := SeqRun.single (roundsRun.inv inv₁) atFeed_active (seqTurn_atFeed busy x win)
  exact ⟨x, win, congrArg (feedForward s.cv) work, .head inv active load (roundsRun.trans feedRun)⟩

/-- Settles O49: the 66 steps are SEQ's own, and LOAD's store moves the carried bytes to the front. -/
theorem blockStepsComputeCompress : Obligations.BlockStepsComputeCompress := by
  intro s inv turns code
  obtain ⟨x, win, cv, seqRun⟩ := seqRun_block inv code
  refine ⟨_, seqRun.run_eq turns, cv, Nat.mod_eq_of_lt (by omega), fun j carried hj => ?_, fun block => ?_,
    fun final => ?_, ?_⟩
  · exact storeBytes_of_getElem? (by omega) (Nat.zero_le j) (carriedBytes_getElem? carried hj)
  · exact ⟨if_pos block, if_pos block⟩
  · have other : s.phase ≠ Phase.block := by rw [final]; decide
    exact ⟨(if_neg other).trans final, if_neg other⟩
  · cases s
    cases turns
    rfl

end Sys2Proof.Machine

/-! SUPPORT. The family of 44_hasher.md section 5: the message a state has absorbed, through UPDATE, FINALIZE and the
blocks of SEQ. -/

namespace Sys2Proof.Machine

/-! ### The bytes in BUF -/

/-- What BUF holds up to the end of a store. -/
theorem storeBytes_toList_take {start : Nat} {bytes : List Byte} {buf : Vector Byte 67}
    (fits : start + bytes.length ≤ 67) :
    (storeBytes start bytes buf).toList.take (start + bytes.length) = buf.toList.take start ++ bytes := by
  have before : (buf.toList.take start).length = start := by rw [List.length_take, Vector.length_toList]; omega
  apply List.ext_getElem
  · rw [List.length_append, before, List.length_take, Vector.length_toList]; omega
  · intro i hi hi'
    rw [List.length_append, before] at hi'
    rw [List.getElem_take, Vector.getElem_toList]
    by_cases old : i < start
    · rw [storeBytes_outside (by omega) (.inl old), List.getElem_append_left (by omega), List.getElem_take,
        Vector.getElem_toList]
    · refine storeBytes_of_getElem? (by omega) (by omega) ?_
      simp only [List.getElem_append_right (before.le.trans (not_lt.mp old)), before]
      exact List.getElem?_eq_getElem _

theorem bufBlock_toList (buf : Vector Byte 67) : (bufBlock buf).toList = buf.toList.take 64 := by
  apply List.ext_getElem
  · simp
  · intro i hi hi'
    simp [bufBlock]

theorem bufBlock_eq_blockAt {buf : Vector Byte 67} {s : List Byte} {k : Nat} (len : 64 * (k + 1) ≤ s.length)
    (bytes : buf.toList.take 64 = (s.drop (64 * k)).take 64) : bufBlock buf = blockAt s k :=
  Vector.toList_inj.mp (by rw [bufBlock_toList, blockAt_toList len, bytes])

/-- R127: a block of the sequence, compressed after the ones before it. -/
theorem compress_next_block {cv : Vector Word 8} {buf : Vector Byte 67} {s : List Byte} {k : Nat}
    (before : cv = (blocks k s).foldl compress iv) (len : 64 * (k + 1) ≤ s.length)
    (bytes : buf.toList.take 64 = (s.drop (64 * k)).take 64) :
    compress cv (bufBlock buf) = (blocks (k + 1) s).foldl compress iv := by
  rw [blocks_succ, List.foldl_append, ← before, bufBlock_eq_blockAt len bytes]
  rfl

/-! ### The message in READY -/

/-- R26, R127: BUF holds what the whole blocks of the message leave. -/
theorem State.Holding.bufCnt_eq {s : State} {m : List Byte} (h : s.Holding m) : s.bufCnt.val = m.length % 64 := by
  obtain ⟨-, -, -, cnt, -, -, bytes⟩ := h
  have len := congrArg List.length bytes
  rw [List.length_take, Vector.length_toList, List.length_drop] at len
  omega

theorem State.Holding.inv {s : State} {m : List Byte} (h : s.Holding m) : s.Inv := by
  have rem := h.bufCnt_eq
  obtain ⟨ready, idle, last, cnt, len, -⟩ := h
  have mod : s.control.lengthMod = m.length % 64 := by
    show s.bitLen.toNat / 8 % 64 = _
    omega
  have mul : s.control.bitLen.toNat % 8 = 0 := by
    show s.bitLen.toNat % 8 = 0
    omega
  exact (inv_iff_control_inv s).mpr ⟨mul, .ready ready idle cnt (rem.trans mod.symm) last⟩

/-- The bytes that an UPDATE adds to the message (R84). -/
theorem dinBytes_eq_map (nb : BitVec 3) (din : Word) :
    dinBytes nb din = (List.range nb.toNat).map (fun k => din.extractLsb' (24 - 8 * k) 8) := rfl

/-- R165: after an UPDATE, with its block not yet compressed if one is full. -/
theorem State.Holding.absorbed_content {s : State} {m : List Byte} {nb : BitVec 3} (h : s.Holding m) (le : nb.toNat ≤ 4)
    (len : 8 * (m.length + nb.toNat) < 2 ^ 64) :
    (absorbed nb s).Absorbed (m.length / 64) (m ++ dinBytes nb s.din) ∧
      (absorbed nb s).bufCnt.val = s.bufCnt.val + nb.toNat := by
  obtain ⟨-, -, -, cnt, bits, cv, bytes⟩ := h
  have fits : s.bufCnt.val + nb.toNat ≤ 67 := by omega
  have cnt' := absorbed_bufCnt_val fits
  have whole : 64 * (m.length / 64) ≤ m.length := Nat.mul_div_le _ _
  refine ⟨⟨?_, ?_, ?_⟩, cnt'⟩
  · rw [absorbed_bitLen_toNat (by omega), List.length_append, dinBytes_length]
    omega
  · rw [absorbed_cv, cv, blocks_append whole]
  · have stored := storeBytes_toList_take (start := s.bufCnt.val) (bytes := dinBytes nb s.din) (buf := s.buf)
      (by rwa [dinBytes_length])
    rw [dinBytes_length] at stored
    rw [cnt', absorbed_buf, stored, bytes, List.drop_append_of_le_length whole]

theorem State.Holding.execUpdate_eq {s : State} {m : List Byte} {nb : BitVec 3} (h : s.Holding m) (le : nb.toNat ≤ 4)
    (len : 8 * (m.length + nb.toNat) < 2 ^ 64) : execUpdate nb s = .next (absorbed nb s) := by
  obtain ⟨ready, -, -, cnt, bits, -⟩ := h
  exact execUpdate_accepted ready le (by omega) (by omega)

/-- UPDATE where no block fills. -/
theorem State.Holding.absorbed_of_room {s : State} {m : List Byte} {nb : BitVec 3} (h : s.Holding m)
    (le : nb.toNat ≤ 4) (len : 8 * (m.length + nb.toNat) < 2 ^ 64) (room : s.bufCnt.val + nb.toNat < 64) :
    (absorbed nb s).Holding (m ++ dinBytes nb s.din) := by
  obtain ⟨content, cnt⟩ := h.absorbed_content le len
  have rem := h.bufCnt_eq
  obtain ⟨ready, idle, last, -⟩ := h
  have count : (m ++ dinBytes nb s.din).length / 64 = m.length / 64 := by
    rw [List.length_append, dinBytes_length]; omega
  refine ⟨?_, ?_, (absorbed_last nb s).trans last, by omega, count ▸ content⟩
  · rw [absorbed_phase, if_neg room.not_ge, ready]
  · rw [absorbed_seq, if_neg room.not_ge, idle]

/-- The block of READY's message that SEQ compresses in BLOCK (R150, R170). -/
theorem State.Absorbed.next_block {s : State} {k : Nat} {m : List Byte} (h : s.Absorbed k m)
    (full : 64 ≤ s.bufCnt.val) {x : Work} (win : Vector Word 16)
    (cv : feedForward s.cv x = compress s.cv (bufBlock s.buf)) :
    (compressed x win s).Absorbed (k + 1) m ∧ (compressed x win s).bufCnt.val = s.bufCnt.val - 64 := by
  obtain ⟨bits, before, bytes⟩ := h
  have cnt : (compressed x win s).bufCnt.val = s.bufCnt.val - 64 := Nat.mod_eq_of_lt (by omega)
  have len := congrArg List.length bytes
  rw [List.length_take, Vector.length_toList, List.length_drop] at len
  refine ⟨⟨bits, cv.trans (compress_next_block before (by omega) ?_), ?_⟩, cnt⟩
  · rw [← bytes, List.take_take, Nat.min_eq_left full]
  · have carried := storeBytes_toList_take (start := 0) (bytes := carriedBytes s) (buf := s.buf)
      (by rw [carriedBytes_length]; omega)
    rw [carriedBytes_length, Nat.zero_add, List.take_zero, List.nil_append] at carried
    rw [cnt]
    refine carried.trans ?_
    rw [carriedBytes, bytes, List.drop_drop]
    congr 1

/-- The 66 steps of a block in BLOCK lead back to READY. -/
theorem State.Absorbed.seqRun_to_holding {s : State} {k : Nat} {m : List Byte} (h : s.Absorbed k m) (inv : s.Inv)
    (block : s.phase = Phase.block) (code : s.seq = Seq.load) (last : s.last = false) (count : m.length / 64 = k + 1) :
    ∃ t, SeqRun 66 s t ∧ t.Holding m := by
  obtain ⟨-, -, full, -⟩ := allowed_of_wf inv.1
  obtain ⟨x, win, cv, seqRun⟩ := seqRun_block inv code
  obtain ⟨content, cnt⟩ := h.next_block (full code) win cv
  exact ⟨_, seqRun, if_pos block, if_pos block, last, by omega, count ▸ content⟩

theorem State.Holding.absorbed_inv {s : State} {m : List Byte} {nb : BitVec 3} (h : s.Holding m) (le : nb.toNat ≤ 4)
    (len : 8 * (m.length + nb.toNat) < 2 ^ 64) : (absorbed nb s).Inv :=
  (inv_iff_control_inv _).mpr
    ((execUpdate_hostMove (h.execUpdate_eq le len)).keeps_inv ((inv_iff_control_inv s).mp h.inv))

/-- UPDATE where a block fills, and the 66 steps of the block. -/
theorem State.Holding.seqRun_of_full {s : State} {m : List Byte} {nb : BitVec 3} (h : s.Holding m)
    (le : nb.toNat ≤ 4) (len : 8 * (m.length + nb.toNat) < 2 ^ 64) (full : 64 ≤ s.bufCnt.val + nb.toNat) :
    ∃ t, SeqRun 66 (absorbed nb s) t ∧ t.Holding (m ++ dinBytes nb s.din) := by
  have inv := h.absorbed_inv le len
  obtain ⟨content, -⟩ := h.absorbed_content le len
  have rem := h.bufCnt_eq
  obtain ⟨-, -, last, -⟩ := h
  have count : (m ++ dinBytes nb s.din).length / 64 = m.length / 64 + 1 := by
    rw [List.length_append, dinBytes_length]; omega
  exact content.seqRun_to_holding inv (by rw [absorbed_phase, if_pos full]) (by rw [absorbed_seq, if_pos full])
    ((absorbed_last nb s).trans last) count

theorem State.Holding.withEnv {s : State} {m : List Byte} (h : s.Holding m) (host : List HostOp) (turns : List Turn)
    (rdata : Option Word) : (s.withEnv host turns rdata).Holding m := h

/-- Settles O50: below a full block the UPDATE alone, else with the steps of the block. -/
theorem updateAppendsToTheMessage : Obligations.UpdateAppendsToTheMessage := by
  rintro s m bytes nb h turns le len rfl
  rw [← dinBytes_eq_map]
  refine ⟨_, h.execUpdate_eq le len, h.absorbed_of_room le len, fun full => ?_⟩
  obtain ⟨t, seqRun, holds⟩ := h.seqRun_of_full le len full
  exact ⟨_, seqRun.run_eq ((absorbed_turns nb s).trans turns), holds.withEnv _ _ _⟩

/-! ### FINALIZE -/

/-- In FINAL at LOAD, block `k` of the padded message is in BUF and the ones before it are compressed. -/
def State.HoldsBlock (k : Nat) (p : List Byte) (s : State) : Prop :=
  s.phase = Phase.final ∧ s.seq = Seq.load ∧ s.cv = (blocks k p).foldl compress iv ∧
    s.buf.toList.take 64 = (p.drop (64 * k)).take 64 ∧ 64 * (k + 1) ≤ p.length

theorem State.HoldsBlock.seqRun {k : Nat} {p : List Byte} {s : State} (h : s.HoldsBlock k p) (inv : s.Inv) :
    ∃ t, SeqRun 66 s t ∧ t.phase = Phase.final ∧ t.seq = (if s.last then Seq.ser else Seq.pad2) ∧
      t.cv = (blocks (k + 1) p).foldl compress iv := by
  obtain ⟨final, code, before, bytes, len⟩ := h
  have other : s.phase ≠ Phase.block := by rw [final]; decide
  obtain ⟨x, win, cv, seqRun⟩ := seqRun_block inv code
  exact ⟨_, seqRun, (if_neg other).trans final, if_neg other, cv.trans (compress_next_block before len bytes)⟩

/-- The bytes of the padded message after its whole blocks (R120): the rest, 0x80, zeros and the length. -/
theorem paddedBytes_drop (m : List Byte) : (paddedBytes m).drop (64 * (m.length / 64)) =
    m.drop (64 * (m.length / 64)) ++
      0x80 :: (List.replicate ((55 + 64 - m.length % 64) % 64) 0x00 ++ be64 (BitVec.ofNat 64 (8 * m.length))) := by
  rw [paddedBytes_eq, List.drop_append_of_le_length (Nat.mul_div_le _ _)]

theorem pad_eq_blocks {m : List Byte} {n : Nat} (count : (m.length + 9 + 63) / 64 = n) :
    pad m = blocks n (paddedBytes m) := by
  rw [pad, paddedBytes_length, count, Nat.mul_div_cancel_left n (by decide)]

/-- R124: READY's message, with bytes stored after it that complete a block of the padded message. -/
theorem State.Holding.padded_holdsBlock {s : State} {m bytes more : List Byte} (h : s.Holding m) (last : Bool)
    (len : s.bufCnt.val + bytes.length = 64)
    (split : (paddedBytes m).drop (64 * (m.length / 64)) = m.drop (64 * (m.length / 64)) ++ bytes ++ more) :
    (padded last (storeBytes s.bufCnt.val bytes s.buf) (finalizing s)).HoldsBlock (m.length / 64) (paddedBytes m) := by
  obtain ⟨-, -, -, -, -, cv, held⟩ := h
  have stored := storeBytes_toList_take (start := s.bufCnt.val) (bytes := bytes) (buf := s.buf) (by omega)
  have whole : 64 * (m.length / 64) ≤ m.length := Nat.mul_div_le _ _
  refine ⟨rfl, rfl, ?_, ?_, by rw [paddedBytes_length]; omega⟩
  · rw [paddedBytes_eq, blocks_append whole]
    exact (padded_cv _ _ _).trans cv
  · have block : (s.buf.toList.take s.bufCnt.val ++ bytes).length = 64 := by
      rw [List.length_append, List.length_take, Vector.length_toList]; omega
    rw [len, held] at stored
    rw [held] at block
    rw [split, List.take_left' block]
    exact stored

/-- R124 on a short remainder: the last block of the padded message. -/
theorem State.Holding.pad1_short {s : State} {m : List Byte} (h : s.Holding m) (short : m.length % 64 ≤ 55) :
    ∃ t, execPad1 (finalizing s) = .next t ∧ t.HoldsBlock (m.length / 64) (paddedBytes m) ∧ t.last = true := by
  have rem := h.bufCnt_eq
  have ⟨_, _, _, _, bits, _⟩ := h
  have length : BitVec.ofNat 64 (8 * m.length) = s.bitLen := by rw [← bits, BitVec.ofNat_toNat, BitVec.setWidth_eq]
  have zeros : (55 + 64 - m.length % 64) % 64 = 55 - s.bufCnt.val := by omega
  refine ⟨_, execPad1_short (s := finalizing s) (rem.trans_le short),
    h.padded_holdsBlock (more := []) (bytes := 0x80 :: (List.replicate (55 - s.bufCnt.val) 0x00 ++ be64 s.bitLen)) true
      ?_ ?_, rfl⟩
  · simp only [List.length_cons, List.length_append, List.length_replicate, be64_length]
    omega
  · rw [paddedBytes_drop, zeros, length, List.append_nil]

/-- R124, R125: what follows the block that PAD1 builds on a long remainder. -/
theorem paddedBytes_drop_long {m : List Byte} (long : 56 ≤ m.length % 64) :
    (paddedBytes m).drop (64 * (m.length / 64)) = m.drop (64 * (m.length / 64)) ++
      (0x80 :: List.replicate (63 - m.length % 64) 0x00) ++
        (List.replicate 56 0x00 ++ be64 (BitVec.ofNat 64 (8 * m.length))) := by
  have zeros : (55 + 64 - m.length % 64) % 64 = 63 - m.length % 64 + 56 := by omega
  rw [paddedBytes_drop, zeros, List.replicate_add]
  simp only [List.append_assoc, List.cons_append]

/-- R124 on a long remainder: the block before the last. -/
theorem State.Holding.pad1_long {s : State} {m : List Byte} (h : s.Holding m) (long : 56 ≤ m.length % 64) :
    ∃ t, execPad1 (finalizing s) = .next t ∧ t.HoldsBlock (m.length / 64) (paddedBytes m) ∧ t.last = false ∧
      t.bitLen = s.bitLen := by
  have rem := h.bufCnt_eq
  have split := paddedBytes_drop_long long
  rw [← rem] at split
  refine ⟨_, execPad1_long (s := finalizing s) (long.trans_eq rem.symm) (by show s.bufCnt.val ≤ 63; omega),
    h.padded_holdsBlock (bytes := 0x80 :: List.replicate (63 - s.bufCnt.val) 0x00) false ?_ split, rfl,
    padded_bitLen _ _ _⟩
  rw [List.length_cons, List.length_replicate]
  omega

/-- R125: PAD2 after the long remainder's first block. -/
theorem pad2_holdsBlock {s : State} {m : List Byte} (long : 56 ≤ m.length % 64) (final : s.phase = Phase.final)
    (bits : s.bitLen = BitVec.ofNat 64 (8 * m.length))
    (cv : s.cv = (blocks (m.length / 64 + 1) (paddedBytes m)).foldl compress iv) :
    (padded true (storeBytes 0 (List.replicate 56 0x00 ++ be64 s.bitLen) s.buf) s).HoldsBlock (m.length / 64 + 1)
      (paddedBytes m) := by
  have stored := storeBytes_toList_take (start := 0) (bytes := List.replicate 56 0x00 ++ be64 s.bitLen) (buf := s.buf)
    (by rw [List.length_append, List.length_replicate, be64_length]; decide)
  have first : (m.drop (64 * (m.length / 64)) ++ (0x80 :: List.replicate (63 - m.length % 64) 0x00)).length = 64 := by
    rw [List.length_append, List.length_drop, List.length_cons, List.length_replicate]; omega
  have second : (paddedBytes m).drop (64 * (m.length / 64 + 1)) = List.replicate 56 0x00 ++ be64 s.bitLen := by
    rw [Nat.mul_succ, ← List.drop_drop, paddedBytes_drop_long long, List.drop_left' first, bits]
  refine ⟨(padded_phase _ _ _).trans final, rfl, (padded_cv _ _ _).trans cv, ?_, by rw [paddedBytes_length]; omega⟩
  rw [second]
  exact stored

theorem SeqRun.keeps_inputs {n : Nat} {s t : State} (h : SeqRun n s t) :
    t.bitLen = s.bitLen ∧ t.din = s.din ∧ t.err = s.err := by
  induction h with
  | refl => exact ⟨rfl, rfl, rfl⟩
  | head _ _ first _ ih =>
    obtain ⟨bitLen, din, err⟩ := (seqTurn_effect first).keeps_inputs
    rw [← bitLen, ← din, ← err]
    exact ih

/-- R171, R176: the end of a FINALIZE, from the last block of the padded message. -/
theorem State.HoldsBlock.seqRun_to_done {s : State} {k : Nat} {m : List Byte} (h : s.HoldsBlock k (paddedBytes m))
    (inv : s.Inv) (last : s.last = true) (count : (m.length + 9 + 63) / 64 = k + 1) :
    ∃ t, SeqRun 67 s t ∧ t.phase = Phase.done ∧ t.seq = Seq.idle ∧ t.cv = (pad m).foldl compress iv := by
  obtain ⟨t, seqRun, final, code, cv⟩ := h.seqRun inv
  rw [last, if_pos rfl] at code
  have ser : seqTurn t = .next { t with phase := Phase.done, seq := Seq.idle } := by
    rw [seqTurn_of_decode (i := .ser) (by rw [code]; rfl)]
    exact if_pos final
  exact ⟨_, seqRun.trans (.single (seqRun.inv inv) (by rw [code]; decide) ser), rfl, rfl,
    cv.trans (by rw [pad_eq_blocks count])⟩

theorem State.Holding.execFinalize_eq {s : State} {m : List Byte} (h : s.Holding m) :
    execFinalize s = .next (finalizing s) := by
  obtain ⟨ready, -⟩ := h
  exact whenReady_of_ready ready

theorem State.Holding.finalizing_inv {s : State} {m : List Byte} (h : s.Holding m) : (finalizing s).Inv :=
  (inv_iff_control_inv _).mpr ((execFinalize_hostMove h.execFinalize_eq).keeps_inv ((inv_iff_control_inv s).mp h.inv))

/-- R173, R176: SEQ's run after FINALIZE, one block or two. -/
theorem State.Holding.seqRun_finalizing {s : State} {m : List Byte} (h : s.Holding m) :
    ∃ t, SeqRun (if m.length % 64 ≤ 55 then 68 else 135) (finalizing s) t ∧ t.phase = Phase.done ∧
      t.seq = Seq.idle ∧ t.cv = (pad m).foldl compress iv := by
  have ⟨_, _, _, _, bits, _⟩ := h
  have inv := h.finalizing_inv
  have active : (finalizing s).seq ≠ Seq.idle := show Seq.pad1 ≠ Seq.idle by decide
  have pad1 : seqTurn (finalizing s) = execPad1 (finalizing s) := seqTurn_of_decode (i := .pad1) rfl
  by_cases short : m.length % 64 ≤ 55
  · obtain ⟨u, first, holds, last⟩ := h.pad1_short short
    rw [← pad1] at first
    obtain ⟨t, rest, done⟩ := holds.seqRun_to_done (seqTurn_keeps_inv first inv) last (by omega)
    rw [if_pos short]
    exact ⟨t, .head inv active first rest, done⟩
  · obtain ⟨u, first, holds, more, bitLen⟩ := h.pad1_long (by omega)
    rw [← pad1] at first
    have inv₁ := seqTurn_keeps_inv first inv
    obtain ⟨v, block, final, code, cv⟩ := holds.seqRun inv₁
    rw [more, if_neg (by decide)] at code
    have inv₂ := block.inv inv₁
    have pad2 : seqTurn v = execPad2 v := seqTurn_of_decode (i := .pad2) (by rw [code]; rfl)
    have length : v.bitLen = BitVec.ofNat 64 (8 * m.length) := by
      obtain ⟨kept, -⟩ := block.keeps_inputs
      rw [kept, bitLen, ← bits, BitVec.ofNat_toNat, BitVec.setWidth_eq]
    obtain ⟨t, rest, done⟩ := (pad2_holdsBlock (by omega) final length cv).seqRun_to_done
      (seqTurn_keeps_inv pad2 inv₂) rfl (by omega)
    rw [if_neg short]
    exact ⟨t, .head inv active first (block.trans (.head inv₂ (by rw [code]; decide) pad2 rest)), done⟩

/-- Settles O51: SEQ's run after FINALIZE is the machine's, and CV at its end is that of `sha256`. -/
theorem finalizeComputesTheDigest : Obligations.FinalizeComputesTheDigest := by
  intro s m h turns
  obtain ⟨t, seqRun, done, idle, cv⟩ := h.seqRun_finalizing
  obtain ⟨bitLen, -, err⟩ := seqRun.keeps_inputs
  refine ⟨finalizing s, t.withEnv s.host [] none, h.execFinalize_eq, ?_, done, idle, congrArg serialize cv, bitLen, err⟩
  split_ifs at * <;> exact seqRun.run_eq turns

end Sys2Proof.Machine

/-! SUPPORT. The family of single commands, accesses and turns: INIT, FINALIZE and SER, the window and its pins, the
polling loop, and the step as dispatch. -/

namespace Sys2Proof.Machine

/-! ### Single meanings -/

theorem statusWord_restarted (s : State) : statusWord (restarted s) = 0 := by
  have same : statusWord (restarted s) = statusWord State.reset := rfl
  rw [same]
  decide

/-- Settles O1: the fields that `restarted` writes are IV or constants. -/
theorem initRestartsInEveryPhase : Obligations.InitRestartsInEveryPhase :=
  fun s => ⟨restarted s, exec_init s, fun _ _ => rfl, rfl, rfl, rfl, rfl, rfl, rfl, statusWord_restarted s, rfl⟩

/-- Settles O7: READY passes the phase checks. -/
theorem finalizeStartsPadding : Obligations.FinalizeStartsPadding :=
  fun s ready => (exec_finalize_eq s).trans (whenReady_of_ready ready)

/-- Settles O10, by the meaning of IDLE. -/
theorem idleTurnChangesNothing : Obligations.IdleTurnChangesNothing := fun _ => rfl

/-- Settles O16: the next state is in DONE, where DIGESTi reads CV[i]. -/
theorem serEntersDone : Obligations.SerEntersDone :=
  fun _ => ⟨fun final => ⟨_, if_pos final, rfl, fun i => (memRead_digest i _).trans (if_pos rfl)⟩,
    fun other => if_neg other⟩

/-- Settles O35, field by field; both commands run on the one state. -/
theorem resetStateIsAFreshHasher : Obligations.ResetStateIsAFreshHasher :=
  ⟨rfl, rfl, rfl, rfl, rfl, rfl, rfl, rfl, statusWord_restarted State.reset, ⟨_, rfl, rfl⟩, ⟨_, rfl, rfl⟩⟩

/-! ### The window -/

theorem ofOffset_aligned (off : BitVec 6) : WinReg.ofOffset (off &&& 0x3C) = WinReg.ofOffset off := by
  revert off; decide

/-- Settles O20: both accesses see the register selected only. -/
theorem unalignedOffsetsReachTheAlignedRegister : Obligations.UnalignedOffsetsReachTheAlignedRegister := by
  intro off v s
  rw [memRead, memRead, memWrite, memWrite, ofOffset_aligned]
  exact ⟨rfl, rfl⟩

theorem memRead_err (s : State) : memRead WinReg.err.offset s = s.err.setWidth 32 :=
  memRead_of_offset (r := .err) s rfl

theorem memWrite_err (v : Word) (s : State) : memWrite WinReg.err.offset v s = .next (clearErrors v s) :=
  memWrite_of_offset (r := .err) v s rfl

/-- Settles O22: the write bit by bit, the read as ERR with zeros above it. -/
theorem errIsWriteOneToClear : Obligations.ErrIsWriteOneToClear := by
  intro s v
  refine ⟨_, memWrite_err v s, ?_, fun b lo hi => ?_, rfl, ?_, ?_⟩
  · rw [clearErrors_err, errAfterWrite_getLsbD]
    simp
  · rw [clearErrors_err, errAfterWrite_getLsbD]
    simp [lo, hi]
  · rw [memRead_err]
    refine BitVec.eq_of_getLsbD_eq fun i hi => ?_
    have inside : i < 32 := by omega
    simp [hi, inside]
  · rw [memRead_err]
    exact BitVec.eq_of_getLsbD_eq fun i hi => by simp [hi]

theorem windowOffset_outside {address : Nat} (h : address < Config.coreBase ∨ Config.coreBase + 64 ≤ address) :
    windowOffset address = none := if_neg (by omega)

/-- Settles O25: an offset has six bits, so CORE_BASE + off is inside, and what is outside has no offset. -/
theorem onlyTheWindowReachesTheCore : Obligations.OnlyTheWindowReachesTheCore := by
  refine ⟨Nat.mul_mod_right 64 _, fun off => ?_, fun address w out => ?_⟩
  · have lt := off.isLt
    rw [windowOffset, if_pos (by omega), Nat.add_sub_cancel_left, BitVec.ofNat_toNat, BitVec.setWidth_eq]
  · unfold HostOp.atAddress
    rw [windowOffset_outside out]

theorem pins_offset (addr : BitVec 4) : addr ++ 0#2 = BitVec.ofNat 6 (4 * addr.toNat) := by
  revert addr; decide

/-- Settles O26: the pins' inputs by cases, as R68 reads them; R199's check passes in a state of R42. -/
theorem pinsPerformOneAccessUnlessReset : Obligations.PinsPerformOneAccessUnlessReset := by
  intro p s
  have edge : risingEdge p s = if p.rst then .next (resetEvent s) else if p.sel then
      if p.we then whenReached (memWrite (p.addr ++ 0#2) p.wdata) { s with rdata := none }
      else whenReached (fun u => .next (readAccess (p.addr ++ 0#2) u)) s
    else .next { s with rdata := none } := rfl
  refine ⟨fun rst => ?_, fun wf rst sel we => ?_, fun wf rst sel we => ?_⟩
  · have reset : risingEdge p s = .next (resetEvent s) := edge.trans (if_pos rst)
    exact ⟨reset.trans (if_pos rst).symm, reset⟩
  · rw [edge, rst, sel, we, whenReached_of_wf wf, pins_offset]
    exact ⟨_, rfl, rfl, rfl⟩
  · rw [edge, rst, sel, we, ← pins_offset]
    exact whenReached_of_wf (s := { s with rdata := none }) wf

/-! ### The step as dispatch -/

/-- Settles O32: the write is a command, which runs what decodes and raises ILLCMD for what does not. -/
theorem stepRunsTheCommandWritten : Obligations.StepRunsTheCommandWritten := by
  rintro s off v rest s0 wf turn op reg rfl
  rw [step_write wf turn op, memWrite, reg]
  refine ⟨fun i dec => command_of_decode dec _, fun e dec => ?_⟩
  obtain ⟨i, dec', -⟩ | ⟨-, -, illegal⟩ := command_cases v { s with host := rest, turns := s.turns.tail, rdata := none }
  · cases dec.symm.trans dec'
  · exact illegal

/-- Settles O33: R199's check passes, and the code decodes. -/
theorem stepRunsTheMicroOperation : Obligations.StepRunsTheMicroOperation := by
  intro s i wf turn code
  rw [step, turn]
  exact (whenReached_of_wf (s := beginStep s) wf).trans (seqTurn_of_decode (s := beginStep s) code)

/-- Settles O34: the step is the reset event, whose fields are those of `State.reset`. -/
theorem resetEventGivesTheResetValues : Obligations.ResetEventGivesTheResetValues := by
  intro s turn
  have next : step s = .next (resetEvent (beginStep s)) := by rw [step, turn]; rfl
  exact ⟨_, next, fun _ _ => rfl, rfl, rfl, rfl, rfl, rfl, rfl, rfl, rfl, rfl⟩

/-! ### The polling loop -/

/-- R34: bit 0 of what a poll reads is BUSY. -/
theorem status_bit_zero (s : State) : (memRead WinReg.status.offset s)[0] = s.busy := by
  have bit := statusWord_getLsbD s 0
  rw [if_pos rfl, BitVec.getLsbD_eq_getElem (by decide)] at bit
  exact bit

theorem hostTurn_waitIdle {s : State} {rest : List HostOp} (op : s.host = .waitIdle :: rest) :
    hostTurn s = .next (readAccess WinReg.status.offset { s with host := if s.busy then s.host else rest }) := by
  rw [hostTurn, op]
  simp only [status_bit_zero]
  cases s.busy with
  | true => exact congrArg (fun h => Host.Outcome.next (readAccess _ { s with host := h })) op
  | false => rfl

/-- Settles O27: the poll drives STATUS, and its bit 0 says whether HOST stays. -/
theorem pollGoesOnOnlyWhenNotBusy : Obligations.PollGoesOnOnlyWhenNotBusy := by
  intro s rest wf turn op
  have next := (step_of_host_turn wf turn).trans (hostTurn_waitIdle (s := beginStep s) op)
  have busy : (beginStep s).busy = decide (Phase.isBusy s.phase) := rfl
  refine ⟨_, next, congrArg some (memRead_of_offset (r := .status) _ rfl), rfl, fun stays => ?_,
    fun block final => ?_, rfl⟩
  · exact if_pos (busy.trans (decide_eq_true stays))
  · exact if_neg (Bool.eq_false_iff.mp (busy.trans (decide_eq_false (not_or.mpr ⟨block, final⟩))))

end Sys2Proof.Machine

/-! SUPPORT. The family of 30_encoding.md section 6: the program `oneshot M`, operation by operation, under every
interleaving of HOST and SEQ. -/

namespace Sys2Proof.Machine

/-! ### Reaching a state -/

/-- Some run from `s` ends in a state that satisfies `P`. -/
def State.Reaches (s : State) (P : State → Prop) : Prop := ∃ n t, run n s = .next t ∧ P t

theorem State.Reaches.refl {s : State} {P : State → Prop} (h : P s) : s.Reaches P := ⟨0, s, rfl, h⟩

theorem State.Reaches.head {s u : State} {P : State → Prop} (first : step s = .next u) (h : u.Reaches P) :
    s.Reaches P := by
  obtain ⟨n, t, rest, ht⟩ := h
  exact ⟨n + 1, t, (run_succ first).trans rest, ht⟩

theorem State.Reaches.trans {s : State} {P Q : State → Prop} (h : s.Reaches P) (h' : ∀ u, P u → u.Reaches Q) :
    s.Reaches Q := by
  obtain ⟨n, u, first, hu⟩ := h
  induction n generalizing s with
  | zero => cases first; exact h' _ hu
  | succ n ih =>
    obtain ⟨v, one, rest⟩ := run_succ_next first
    exact .head one (ih rest)

/-! ### Turns -/

/-- `t` is `s` but for HOST's operations, rdata, and turns to come without a reset event. -/
def State.SameCore (host : List HostOp) (s t : State) : Prop :=
  ∃ turns rdata, Turn.reset ∉ turns ∧ t = s.withEnv host turns rdata

theorem State.SameCore.trans {s t u : State} {host host' : List HostOp} (h : s.SameCore host t)
    (h' : t.SameCore host' u) : s.SameCore host' u := by
  obtain ⟨_, _, -, rfl⟩ := h
  obtain ⟨turns, rdata, noReset, rfl⟩ := h'
  exact ⟨turns, rdata, noReset, rfl⟩

theorem State.sameCore_self {s : State} (noReset : s.noReset) : s.SameCore s.host s :=
  ⟨s.turns, s.rdata, noReset, rfl⟩

/-- A turn of HOST comes, after SEQ's steps (R220); with SEQ at IDLE these change nothing. -/
theorem host_turn_comes {s : State} (inv : s.Inv) (noReset : s.noReset) : s.Reaches fun u =>
    nextTurn u = .host ∧ u.Inv ∧ u.noReset ∧ u.host = s.host ∧ (s.seq = Seq.idle → s.SameCore s.host u) := by
  induction turns : s.turns generalizing s with
  | nil =>
    by_cases idle : s.seq = Seq.idle
    · have turn : nextTurn s = .host := by rw [nextTurn, turns]; exact if_pos idle
      exact .refl ⟨turn, inv, noReset, rfl, fun _ => s.sameCore_self noReset⟩
    · obtain ⟨n, t, -, seqRun, idle'⟩ := exists_seqRun_to_idle inv s.control.stepsLeft_le
      cases n with
      | zero => cases seqRun; exact absurd idle' idle
      | succ n =>
        refine ⟨n + 1, _, seqRun.run_eq turns, if_pos idle', seqRun.inv inv, List.not_mem_nil, rfl, ?_⟩
        exact fun now => absurd now idle
  | cons turn rest ih =>
    have noReset' : Turn.reset ∉ turn :: rest := turns ▸ noReset
    cases turn with
    | host => exact .refl ⟨by rw [nextTurn, turns], inv, noReset, rfl, fun _ => s.sameCore_self noReset⟩
    | reset => exact absurd List.mem_cons_self noReset'
    | seq =>
      obtain ⟨t, next⟩ := seqTurn_goes_on inv.1
      have next' := step_of_seq_turn inv.1 (by rw [nextTurn, turns]) next
      rw [turns] at next'
      have tail : Turn.reset ∉ rest := fun h => noReset' (List.mem_cons_of_mem _ h)
      have inv₁ : t.Inv := seqTurn_keeps_inv next inv
      refine .head next' ((ih (s := t.withEnv s.host rest none) inv₁ tail rfl).trans ?_)
      rintro u ⟨turn, inv', noReset'', host, same⟩
      refine .refl ⟨turn, inv', noReset'', host, fun idle => ?_⟩
      have stutter : seqTurn s = .next s := seqTurn_of_decode (i := .idle) (by rw [idle]; rfl)
      cases next.symm.trans stutter
      exact State.SameCore.trans ⟨rest, none, tail, rfl⟩ (same idle)

theorem noReset_tail {s : State} (h : s.noReset) : Turn.reset ∉ s.turns.tail := fun m => h (List.mem_of_mem_tail m)

/-! ### Single operations of HOST -/

/-- A write of HOST, from the state in which its turn comes. -/
theorem write_reaches {s : State} {off : BitVec 6} {v : Word} {rest : List HostOp} {P : State → Prop} (inv : s.Inv)
    (noReset : s.noReset) (op : s.host = .write off v :: rest)
    (effect : ∀ u, u.Inv → u.noReset → u.host = rest → (s.seq = Seq.idle → s.SameCore rest u) →
      ∃ t, memWrite off v u = .next t ∧ P t) : s.Reaches P := by
  refine (host_turn_comes inv noReset).trans ?_
  rintro u ⟨turn, inv', noReset', host, same⟩
  obtain ⟨t, next, ht⟩ := effect (u.withEnv rest u.turns.tail none) inv' (noReset_tail noReset') rfl
    fun idle => (same idle).trans ⟨_, _, noReset_tail noReset', rfl⟩
  exact .head ((step_write inv'.1 turn (host.trans op)).trans next) (.refl ht)

/-- HOST's reads change nothing of the core. -/
theorem reads_reach {regs : List WinReg} {s : State} (inv : s.Inv) (idle : s.seq = Seq.idle) (noReset : s.noReset)
    (op : s.host = regs.map Asm.rd) : s.Reaches (s.SameCore []) := by
  induction regs generalizing s with
  | nil => exact .refl ⟨s.turns, s.rdata, noReset, congrArg (s.withEnv · s.turns s.rdata) op⟩
  | cons r regs ih =>
    refine (host_turn_comes inv noReset).trans ?_
    rintro u ⟨turn, inv', noReset', host, same⟩
    obtain ⟨turns, rdata, -, rfl⟩ := same idle
    exact .head (step_read inv'.1 turn (host.trans op))
      (ih (s := s.withEnv (regs.map Asm.rd) turns.tail _) inv idle (noReset_tail noReset') rfl)

/-! ### The polling loop -/

/-- SEQ's turn comes while HOST polls: each poll of a BUSY core is repeated (R89). -/
theorem seq_turn_comes {s t : State} {rest : List HostOp} (inv : s.Inv) (active : s.seq ≠ Seq.idle)
    (noReset : s.noReset) (op : s.host = .waitIdle :: rest) (next : seqTurn s = .next t) :
    s.Reaches (t.SameCore s.host) := by
  induction turns : s.turns generalizing s t with
  | nil =>
    have turn : nextTurn s = .seq := by rw [nextTurn, turns]; exact if_neg active
    exact .head (step_of_seq_turn inv.1 turn next) (.refl ⟨_, _, noReset_tail noReset, rfl⟩)
  | cons turn later ih =>
    have tail := noReset_tail noReset
    cases turn with
    | reset => exact absurd (turns ▸ List.mem_cons_self) noReset
    | seq =>
      have turn : nextTurn s = .seq := by rw [nextTurn, turns]
      exact .head (step_of_seq_turn inv.1 turn next) (.refl ⟨_, _, tail, rfl⟩)
    | host =>
      have turn : nextTurn s = .host := by rw [nextTurn, turns]
      have busy := (busy_iff_active inv).mpr active
      obtain ⟨u, poll, -, turns', stays, -, frame⟩ := pollGoesOnOnlyWhenNotBusy s rest inv.1 turn op
      have same : u = s.withEnv s.host later u.rdata := by
        rw [frame, stays busy, turns', turns]; rfl
      rw [turns] at tail
      rw [same] at poll
      exact .head poll (ih (s := s.withEnv s.host later u.rdata) (t := t.withEnv s.host later u.rdata) inv active tail
        op (seqTurn_withEnv next _ _ _) rfl)

/-- `wait_idle` lets SEQ run to IDLE (R89). -/
theorem waitIdle_reaches {n : Nat} {s t : State} {rest : List HostOp} (seqRun : SeqRun n s t) (idle : t.seq = Seq.idle)
    (inv : s.Inv) (noReset : s.noReset) (op : s.host = .waitIdle :: rest) : s.Reaches (t.SameCore rest) := by
  induction n generalizing s t with
  | zero =>
    cases seqRun
    refine (host_turn_comes inv noReset).trans ?_
    rintro u ⟨turn, inv', noReset', host, same⟩
    obtain ⟨turns, rdata, -, rfl⟩ := same idle
    obtain ⟨v, poll, -, turns', -, leaves, frame⟩ := pollGoesOnOnlyWhenNotBusy _ rest inv'.1 turn (host.trans op)
    have notBusy : ¬ Phase.isBusy s.phase := fun busy => (busy_iff_active inv).mp busy idle
    refine .head poll (.refl ⟨v.turns, v.rdata, turns' ▸ noReset_tail noReset', ?_⟩)
    rw [frame, leaves (fun p => notBusy (.inl p)) (fun p => notBusy (.inr p))]
    rfl
  | succ n ih =>
    cases seqRun with
    | @head _ _ u _ _ active first later =>
      refine (seq_turn_comes inv active noReset op first).trans ?_
      rintro _ ⟨turns, rdata, noReset', rfl⟩
      have inv₁ : u.Inv := seqTurn_keeps_inv first inv
      exact ih (s := u.withEnv s.host turns rdata) (t := t.withEnv s.host turns rdata)
        (later.withEnv s.host turns rdata) idle inv₁ noReset' op

/-! ### The program -/

/-- HOST has the operations `host` to come, and READY holds the message `m` without an error. -/
def State.Running (host : List HostOp) (m : List Byte) (s : State) : Prop :=
  s.Holding m ∧ s.err = 0 ∧ s.noReset ∧ s.host = host

theorem memWrite_command {v : Word} {i : Instr} (dec : decode (.cmd v) = .ok i) (s : State) :
    memWrite WinReg.cmd.offset v s = exec i s :=
  (memWrite_of_offset (r := .cmd) v s rfl).trans (command_of_decode dec s)

/-- `init`, whatever the core was doing. -/
theorem init_reaches {s : State} {rest : List HostOp} (inv : s.Inv) (noReset : s.noReset)
    (op : s.host = Asm.init :: rest) : s.Reaches (State.Running rest []) := by
  refine write_reaches inv noReset op fun u _ noReset' host _ => ?_
  exact ⟨restarted u, memWrite_command (i := .init) (by decide) u, ⟨rfl, rfl, rfl, Nat.zero_le _, rfl, rfl, rfl⟩, rfl,
    noReset', host⟩

theorem din_reaches {s : State} {m : List Byte} {w : Word} {rest : List HostOp}
    (h : s.Running (Asm.wr .din w :: rest) m) : s.Reaches fun t => t.Running rest m ∧ t.din = w := by
  obtain ⟨holds, err, noReset, op⟩ := h
  have ⟨_, idle, _⟩ := holds
  refine write_reaches holds.inv noReset op fun u _ noReset' host same => ?_
  obtain ⟨turns, rdata, -, rfl⟩ := same idle
  exact ⟨_, memWrite_of_offset (r := .din) w _ rfl, ⟨holds, err, noReset', rfl⟩, rfl⟩

theorem State.Holding.seqRun_absorbed {s : State} {m : List Byte} {nb : BitVec 3} (h : s.Holding m)
    (le : nb.toNat ≤ 4) (len : 8 * (m.length + nb.toNat) < 2 ^ 64) :
    ∃ n t, SeqRun n (absorbed nb s) t ∧ t.Holding (m ++ dinBytes nb s.din) := by
  by_cases room : s.bufCnt.val + nb.toNat < 64
  · exact ⟨0, _, .refl _, h.absorbed_of_room le len room⟩
  · exact ⟨66, h.seqRun_of_full le len (not_lt.mp room)⟩

/-- `update NB`, and `wait_idle` after it. -/
theorem update_reaches {s : State} {m : List Byte} {nb : BitVec 3} {rest : List HostOp}
    (h : s.Running (Asm.update nb :: .waitIdle :: rest) m) (le : nb.toNat ≤ 4)
    (len : 8 * (m.length + nb.toNat) < 2 ^ 64) : s.Reaches (State.Running rest (m ++ dinBytes nb s.din)) := by
  obtain ⟨holds, err, noReset, op⟩ := h
  have ⟨_, idle, _⟩ := holds
  have dec : decode (encode (.update nb)) = .ok (.update nb) := decode_encode (decide_eq_true le)
  have updated : s.Reaches fun t => ∃ turns rdata, Turn.reset ∉ turns ∧
      t = absorbed nb (s.withEnv (.waitIdle :: rest) turns rdata) := by
    refine write_reaches holds.inv noReset op fun u _ _ _ same => ?_
    obtain ⟨turns, rdata, noReset', rfl⟩ := same idle
    exact ⟨_, (memWrite_command dec _).trans ((holds.withEnv _ turns rdata).execUpdate_eq le len), turns, rdata,
      noReset', rfl⟩
  refine updated.trans ?_
  rintro _ ⟨turns, rdata, noReset', rfl⟩
  have holds₁ := holds.withEnv (.waitIdle :: rest) turns rdata
  obtain ⟨n, t, seqRun, holds'⟩ := holds₁.seqRun_absorbed le len
  have ⟨_, idle', _⟩ := holds'
  obtain ⟨-, -, err'⟩ := seqRun.keeps_inputs
  rw [absorbed_err] at err'
  refine (waitIdle_reaches seqRun idle' (holds₁.absorbed_inv le len) ?_ (absorbed_host nb _)).trans ?_
  · rwa [State.noReset, absorbed_turns]
  · rintro _ ⟨turns', rdata', noReset'', rfl⟩
    exact .refl ⟨holds'.withEnv rest turns' rdata', err'.trans err, noReset'', rfl⟩

/-- `absorb NB, w` and `wait_idle` (R89). -/
theorem absorb_reaches {s : State} {m bytes : List Byte} {nb : BitVec 3} {w : Word} {rest : List HostOp}
    (h : s.Running (Asm.absorb nb w ++ .waitIdle :: rest) m) (le : nb.toNat ≤ 4) (taken : dinBytes nb w = bytes)
    (len : 8 * (m.length + bytes.length) < 2 ^ 64) : s.Reaches (State.Running rest (m ++ bytes)) := by
  subst taken
  rw [dinBytes_length] at len
  refine (din_reaches h).trans ?_
  rintro u ⟨running, rfl⟩
  exact update_reaches running le len

/-- R84: the bytes an UPDATE takes from a Word are its first ones. -/
theorem dinBytes_be32 {nb : BitVec 3} (le : nb.toNat ≤ 4) (b0 b1 b2 b3 : Byte) :
    dinBytes nb (be32 b0 b1 b2 b3) = [b0, b1, b2, b3].take nb.toNat := by
  have first : dinBytes nb (be32 b0 b1 b2 b3) = (dinBytes 4 (be32 b0 b1 b2 b3)).take nb.toNat := by
    rw [dinBytes, dinBytes, ← List.map_take, List.take_range]
    exact congrArg (fun k => (List.range k).map _) (Nat.min_eq_left le).symm
  have all : dinBytes 4 (be32 b0 b1 b2 b3) = bytes32 (be32 b0 b1 b2 b3) := rfl
  rw [first, all, bytes32_be32]

/-- The part of `oneshot M` between `init` and `finalize` absorbs the message (R89). -/
theorem message_reaches {s : State} {m bytes : List Byte} {rest : List HostOp}
    (h : s.Running (Asm.message bytes ++ rest) m) (len : 8 * (m.length + bytes.length) < 2 ^ 64) :
    s.Reaches (State.Running rest (m ++ bytes)) := by
  induction bytes using Asm.message.induct generalizing s m with
  | case1 b0 b1 b2 b3 later ih =>
    have parts : [b0, b1, b2, b3].length + later.length = (b0 :: b1 :: b2 :: b3 :: later).length :=
      List.length_append.symm
    rw [Asm.message, List.append_assoc] at h
    have absorbed := absorb_reaches (bytes := [b0, b1, b2, b3]) h (by decide)
      (dinBytes_be32 (nb := 4) (by decide) b0 b1 b2 b3) (by omega)
    refine absorbed.trans fun u running => ?_
    have more := ih running (by rw [List.length_append]; omega)
    rwa [List.append_assoc] at more
  | case2 b0 b1 b2 => exact absorb_reaches h (by decide) (dinBytes_be32 (nb := 3) (by decide) b0 b1 b2 0) len
  | case3 b0 b1 => exact absorb_reaches h (by decide) (dinBytes_be32 (nb := 2) (by decide) b0 b1 0 0) len
  | case4 b0 => exact absorb_reaches h (by decide) (dinBytes_be32 (nb := 1) (by decide) b0 0 0 0) len
  | case5 => exact .refl (by rwa [List.append_nil])

/-! ### The end of the program -/

theorem finalize_reaches {s : State} {m : List Byte} {rest : List HostOp}
    (h : s.Running (Asm.finalize :: .waitIdle :: rest) m) : s.Reaches fun t => t.Inv ∧ t.noReset ∧ t.host = rest ∧
      t.phase = Phase.done ∧ t.seq = Seq.idle ∧ t.err = 0 ∧ t.cv = (pad m).foldl compress iv := by
  obtain ⟨holds, err, noReset, op⟩ := h
  have ⟨_, idle, _⟩ := holds
  have finalized : s.Reaches ((finalizing s).SameCore (.waitIdle :: rest)) := by
    refine write_reaches holds.inv noReset op fun u _ _ _ same => ?_
    obtain ⟨turns, rdata, noReset', rfl⟩ := same idle
    exact ⟨_, (memWrite_command (i := .finalize) (by decide) _).trans (holds.withEnv _ turns rdata).execFinalize_eq,
      turns, rdata, noReset', rfl⟩
  refine finalized.trans ?_
  rintro _ ⟨turns, rdata, noReset', rfl⟩
  obtain ⟨t, seqRun, done, idle', cv⟩ := holds.seqRun_finalizing
  obtain ⟨-, -, err'⟩ := seqRun.keeps_inputs
  have inv' : t.Inv := seqRun.inv holds.finalizing_inv
  have seqRun' := seqRun.withEnv (.waitIdle :: rest) turns rdata
  refine (waitIdle_reaches seqRun' idle' holds.finalizing_inv noReset' rfl).trans ?_
  rintro _ ⟨turns', rdata', noReset'', rfl⟩
  exact .refl ⟨inv', noReset'', rfl, done, idle', err'.trans err, cv⟩

/-- Settles O52: `init`, the message, `finalize` with SEQ's run, and the reads of the Digest, in HOST's order. -/
theorem oneshotComputesTheDigestUnderEverySchedule : Obligations.OneshotComputesTheDigestUnderEverySchedule := by
  intro s m inv noReset len
  have started := init_reaches (s := { s with host := Asm.oneshot m }) inv noReset rfl
  have absorbed := started.trans fun u running => message_reaches running (by rwa [List.length_nil, Nat.zero_add])
  have finished := absorbed.trans fun u running => finalize_reaches running
  have read : { s with host := Asm.oneshot m }.Reaches fun t => t.host = [] ∧ t.phase = Phase.done ∧
      t.seq = Seq.idle ∧ t.err = 0 ∧ t.cv = (pad m).foldl compress iv := by
    refine finished.trans fun u ⟨inv', noReset', op, done, idle, err, cv⟩ => ?_
    refine (reads_reach (regs := (List.finRange 8).map .digest) inv' idle noReset' op).trans ?_
    rintro _ ⟨turns, rdata, -, rfl⟩
    exact .refl ⟨rfl, done, idle, err, cv⟩
  obtain ⟨n, t, h, host, done, idle, err, cv⟩ := read
  exact ⟨n, t, h, host, done, idle, err, congrArg serialize cv⟩

end Sys2Proof.Machine
